-- ==== Sys2Proof/Word.lean ====
section
/-! DEFINITION. Field elements and words: the only data of the machine (spec/00_scope.md R7, R9). -/

namespace Sys2Proof

/-- A word, or cell content: `WORD_SIZE` field elements, the one at the lowest address first (R9, R50).
A field element is its canonical integer in `[0, p)`, a `Nat` (R7). The bound is an invariant
(`Machine.State.Wf`), because `p` is a parameter of the launch and not of the type. -/
abbrev Word := List Nat

/-- The order of the BabyBear field. The source names the field and gives no number; the value is the
spec's reference value from general knowledge (R6, R146). PRESUMED, log entry 2. -/
def babyBear : Nat := 2013265921

/-- `CHUNK`, half the Poseidon2 state (R6, R79). -/
def chunk : Nat := 8

/-- `WIDTH`, the Poseidon2 state width (R6, R79). -/
def poseidonWidth : Nat := 16

end Sys2Proof
end

