-- ==== Sys2Proof/Machine/Flags.lean ====
section
/-! DEFINITION. The machine has no flags, condition codes or predicates (spec/10_state.md R36): no instruction sets
or reads one. The only comparison is the word equality of BEQ and BNE (spec/40_core.md R106). -/

namespace Sys2Proof.Machine

/-- Word equality, element by element, and not equality of composed values (R106, D36). -/
def wordEq : Word → Word → Bool
  | [], [] => true
  | x :: v, y :: w => decide (x = y) && wordEq v w
  | _, _ => false

end Sys2Proof.Machine
end

