-- ==== Sys2Proof/Syntax.lean ====
section
/-! DEFINITION. The syntax of the instruction set: the 23 mnemonics of spec/00_scope.md R2, the six-element
instruction group of spec/30_encoding.md R70, and the ONE inductive of instructions. -/

namespace Sys2Proof

/-- The 23 opcodes, in the order of R78. Each Poseidon2 opcode of R79 is one mnemonic. -/
inductive Mnemonic where
  | loadw
  | storew
  | jal
  | beq
  | bne
  | terminate
  | shintw
  | publish
  | hintInput
  | hintBits
  | fadd
  | fsub
  | fmul
  | fdiv
  | fe4add
  | fe4sub
  | bbe4mul
  | bbe4inv
  | compressPoseidon2
  | permPoseidon2
  | permKeccak
  | fail
  | printf
deriving DecidableEq, Repr

/-- Every mnemonic, in the order of R78. -/
def Mnemonic.all : List Mnemonic :=
  [.loadw, .storew, .jal, .beq, .bne, .terminate, .shintw, .publish, .hintInput, .hintBits, .fadd,
  .fsub, .fmul, .fdiv, .fe4add, .fe4sub, .bbe4mul, .bbe4inv, .compressPoseidon2, .permPoseidon2,
  .permKeccak, .fail, .printf]

/-- The instruction group F6: six field elements, in this order (R70). -/
structure Tuple where
  opcode : Nat
  a : Nat
  b : Nat
  c : Nat
  d : Nat
  e : Nat
deriving DecidableEq, Repr

/-- An instruction: one constructor per row of spec/opcode_table.json, each with the five elements
`a b c d e` that follow the opcode (R70, R73). Unused elements are kept (R76). -/
inductive Instr where
  /-- LOADW (alias LW, R85), R101. -/
  | loadw (a b c d e : Nat)
  /-- STOREW (alias SW, R85), R102. -/
  | storew (a b c d e : Nat)
  /-- JAL, R103. -/
  | jal (a b c d e : Nat)
  /-- BEQ, R104. -/
  | beq (a b c d e : Nat)
  /-- BNE, R105. -/
  | bne (a b c d e : Nat)
  /-- TERMINATE, R107. -/
  | terminate (a b c d e : Nat)
  /-- SHINTW, R108. -/
  | shintw (a b c d e : Nat)
  /-- PUBLISH, R109. -/
  | publish (a b c d e : Nat)
  /-- HINT_INPUT, R118. -/
  | hintInput (a b c d e : Nat)
  /-- HINT_BITS, R119. -/
  | hintBits (a b c d e : Nat)
  /-- FADD, R131. -/
  | fadd (a b c d e : Nat)
  /-- FSUB, R132. -/
  | fsub (a b c d e : Nat)
  /-- FMUL, R133. -/
  | fmul (a b c d e : Nat)
  /-- FDIV, R134. -/
  | fdiv (a b c d e : Nat)
  /-- FE4ADD, R141. -/
  | fe4add (a b c d e : Nat)
  /-- FE4SUB, R142. -/
  | fe4sub (a b c d e : Nat)
  /-- BBE4MUL, R143. -/
  | bbe4mul (a b c d e : Nat)
  /-- BBE4INV, R144. -/
  | bbe4inv (a b c d e : Nat)
  /-- COMPRESS_POSEIDON2[CHUNK=8,PID=0], R152. -/
  | compressPoseidon2 (a b c d e : Nat)
  /-- PERM_POSEIDON2[WIDTH=16,PID=0], R153. -/
  | permPoseidon2 (a b c d e : Nat)
  /-- PERM_KECCAK, R154. -/
  | permKeccak (a b c d e : Nat)
  /-- FAIL, R161. -/
  | fail (a b c d e : Nat)
  /-- PRINTF, R162. -/
  | printf (a b c d e : Nat)
deriving DecidableEq, Repr

/-- The five elements after the opcode, in the order of R70. -/
def Instr.elements : Instr → List Nat
  | .loadw a b c d e => [a, b, c, d, e]
  | .storew a b c d e => [a, b, c, d, e]
  | .jal a b c d e => [a, b, c, d, e]
  | .beq a b c d e => [a, b, c, d, e]
  | .bne a b c d e => [a, b, c, d, e]
  | .terminate a b c d e => [a, b, c, d, e]
  | .shintw a b c d e => [a, b, c, d, e]
  | .publish a b c d e => [a, b, c, d, e]
  | .hintInput a b c d e => [a, b, c, d, e]
  | .hintBits a b c d e => [a, b, c, d, e]
  | .fadd a b c d e => [a, b, c, d, e]
  | .fsub a b c d e => [a, b, c, d, e]
  | .fmul a b c d e => [a, b, c, d, e]
  | .fdiv a b c d e => [a, b, c, d, e]
  | .fe4add a b c d e => [a, b, c, d, e]
  | .fe4sub a b c d e => [a, b, c, d, e]
  | .bbe4mul a b c d e => [a, b, c, d, e]
  | .bbe4inv a b c d e => [a, b, c, d, e]
  | .compressPoseidon2 a b c d e => [a, b, c, d, e]
  | .permPoseidon2 a b c d e => [a, b, c, d, e]
  | .permKeccak a b c d e => [a, b, c, d, e]
  | .fail a b c d e => [a, b, c, d, e]
  | .printf a b c d e => [a, b, c, d, e]

end Sys2Proof
end

