-- ==== Sys2Proof/Config.lean ====
section
/-! DEFINITION. The configuration of a VM instance, spec/00_scope.md R6: what is fixed before the launch and
never changes during a run. The parameters that are data are the fields of `Config`; the functions the
spec leaves open are constants with no body. -/

namespace Sys2Proof

/-- The pair `compose`, `decompose` (R42, D8). With `WORD_SIZE = 1` both are the identity whatever is
chosen here (R42). Log entry 11. -/
inductive Conversion where
  /-- The default pair: little-endian limbs of `limbBits` bits (R43, R44). -/
  | limbs (limbBits : Nat)
  /-- `compose w = w[0]`, `decompose x = [x, 0, ..., 0]`, the pair of R130 and C5. -/
  | firstElement
  /-- Any other pair of functions, named by a number; the functions are uninterpreted (R42). -/
  | other (id : Nat)
deriving DecidableEq, Repr

/-- The parameters of R6 that are data. Reference values are in `Config.reference` (Decode.lean). -/
structure Config where
  /-- `p`, the prime order of F. -/
  p : Nat
  /-- `WORD_SIZE`, field elements per word. -/
  wordSize : Nat
  /-- `INST_WIDTH`, the distance between consecutive instructions in code addresses. -/
  instWidth : Nat
  /-- `compose`, `decompose` and `LIMB_BITS`. -/
  conversion : Conversion
  /-- `Dom(1)`, as half-open ranges of addresses `(lo, hi)`. Log entry 30. -/
  dom1 : List (Nat × Nat)
  /-- `ENABLED`, the opcodes this VM instance runs (R80). -/
  enabled : List Mnemonic
  /-- `OPC`, the number of each mnemonic, in the order of `Mnemonic.all` (R77, D5). -/
  opc : Vector Nat 23
  /-- `NUM_PUBLIC_VALUES` (R29). -/
  numPublicValues : Nat
  /-- `HINT_BITS_LEN` (R119). -/
  hintBitsLen : Nat
  /-- `KECCAK_WIDTH`, the number of 16-bit values of the keccak state (R151). -/
  keccakWidth : Nat
deriving DecidableEq, Repr

/-- `poseidon2_perm` before reduction into F: element `i` of the permuted state. The spec leaves the
function open (R150, D27): no body, nothing is assumed of it. Log entry 9. -/
opaque Config.poseidon2Out : List Nat → Nat → Nat

/-- `keccak_f` before reduction to 16 bits: element `i` of the permuted state. The spec leaves the
function open (R151, D26): no body, nothing is assumed of it. Log entry 10. -/
opaque Config.keccakOut : List Nat → Nat → Nat

/-- `compose` of a conversion pair that the spec does not write down (R42, D8): no body. Log entry 11. -/
opaque Config.otherCompose : Nat → Word → Nat

/-- Element `i` of `decompose v` of a conversion pair that the spec does not write down (R42, D8): no
body. Log entry 11. -/
opaque Config.otherDecompose : Nat → Nat → Nat → Nat

end Sys2Proof
end

