-- ==== Sys2Proof/WellFormed.lean ====
section
/-! DEFINITION. Static well-formedness of an instruction: every element is an integer in `[0, p)`
(spec/30_encoding.md R72). Everything else that can be wrong with an instruction is a fault of its execution,
not of its form (R82). -/

namespace Sys2Proof

/-- Every one of the elements `a b c d e` is an element of F (R72). -/
def Instr.wellFormed (p : Nat) (i : Instr) : Bool := i.elements.all fun x => decide (x < p)

/-- Every one of the six elements of the group is an element of F (R72, R193 item 6). -/
def Tuple.wellFormed (p : Nat) (t : Tuple) : Bool :=
  decide (t.opcode < p) && decide (t.a < p) && decide (t.b < p) && decide (t.c < p) && decide (t.d < p) &&
    decide (t.e < p)

end Sys2Proof
end

