-- ==== Sys2Proof/Decode.lean ====
section
/-! DEFINITION. Decoding and encoding, spec/30_encoding.md. An instruction is a group of six field elements and
is selected by the first one alone (R70, R78); the numbers of the opcodes are the parameter `OPC` (R77). -/

namespace Sys2Proof

/-- The place of a mnemonic in the list of R78. -/
def Mnemonic.index : Mnemonic → Fin 23
  | .loadw => 0
  | .storew => 1
  | .jal => 2
  | .beq => 3
  | .bne => 4
  | .terminate => 5
  | .shintw => 6
  | .publish => 7
  | .hintInput => 8
  | .hintBits => 9
  | .fadd => 10
  | .fsub => 11
  | .fmul => 12
  | .fdiv => 13
  | .fe4add => 14
  | .fe4sub => 15
  | .bbe4mul => 16
  | .bbe4inv => 17
  | .compressPoseidon2 => 18
  | .permPoseidon2 => 19
  | .permKeccak => 20
  | .fail => 21
  | .printf => 22

/-- `OPC(m)` (R77). -/
def Config.opcodeOf (c : Config) (m : Mnemonic) : Nat := c.opc[m.index]

/-- The mnemonic `m` with `OPC(m) = x`, if there is one (R80). -/
def Config.mnemonicOf (c : Config) (x : Nat) : Option Mnemonic := Mnemonic.all.find? fun m => c.opcodeOf m == x

/-- `OPC` is an injective map into F (R77, R193 item 3). -/
abbrev Config.OpcOk (c : Config) : Prop :=
  (Mnemonic.all.map c.opcodeOf).Nodup ∧ ∀ m ∈ Mnemonic.all, c.opcodeOf m < c.p

/-- The opcode of an instruction. -/
def Instr.mnemonic : Instr → Mnemonic
  | .loadw _ _ _ _ _ => .loadw
  | .storew _ _ _ _ _ => .storew
  | .jal _ _ _ _ _ => .jal
  | .beq _ _ _ _ _ => .beq
  | .bne _ _ _ _ _ => .bne
  | .terminate _ _ _ _ _ => .terminate
  | .shintw _ _ _ _ _ => .shintw
  | .publish _ _ _ _ _ => .publish
  | .hintInput _ _ _ _ _ => .hintInput
  | .hintBits _ _ _ _ _ => .hintBits
  | .fadd _ _ _ _ _ => .fadd
  | .fsub _ _ _ _ _ => .fsub
  | .fmul _ _ _ _ _ => .fmul
  | .fdiv _ _ _ _ _ => .fdiv
  | .fe4add _ _ _ _ _ => .fe4add
  | .fe4sub _ _ _ _ _ => .fe4sub
  | .bbe4mul _ _ _ _ _ => .bbe4mul
  | .bbe4inv _ _ _ _ _ => .bbe4inv
  | .compressPoseidon2 _ _ _ _ _ => .compressPoseidon2
  | .permPoseidon2 _ _ _ _ _ => .permPoseidon2
  | .permKeccak _ _ _ _ _ => .permKeccak
  | .fail _ _ _ _ _ => .fail
  | .printf _ _ _ _ _ => .printf

/-- The instruction with a given opcode and elements. -/
def Mnemonic.instr (m : Mnemonic) (a b c d e : Nat) : Instr :=
  match m with
  | .loadw => .loadw a b c d e
  | .storew => .storew a b c d e
  | .jal => .jal a b c d e
  | .beq => .beq a b c d e
  | .bne => .bne a b c d e
  | .terminate => .terminate a b c d e
  | .shintw => .shintw a b c d e
  | .publish => .publish a b c d e
  | .hintInput => .hintInput a b c d e
  | .hintBits => .hintBits a b c d e
  | .fadd => .fadd a b c d e
  | .fsub => .fsub a b c d e
  | .fmul => .fmul a b c d e
  | .fdiv => .fdiv a b c d e
  | .fe4add => .fe4add a b c d e
  | .fe4sub => .fe4sub a b c d e
  | .bbe4mul => .bbe4mul a b c d e
  | .bbe4inv => .bbe4inv a b c d e
  | .compressPoseidon2 => .compressPoseidon2 a b c d e
  | .permPoseidon2 => .permPoseidon2 a b c d e
  | .permKeccak => .permKeccak a b c d e
  | .fail => .fail a b c d e
  | .printf => .printf a b c d e

/-- Why a group of numbers is no instruction. -/
inductive DecodeError where
  /-- Not a group of six elements (R70, R83). -/
  | wrongLength (n : Nat)
  /-- A number that is no element of F: the loader refuses it, nothing is reduced (R72, D33). -/
  | elementOutOfRange
  /-- The first element is `OPC(m)` for no mnemonic `m` (R80). -/
  | opcodeUnknown (x : Nat)
deriving DecidableEq, Repr

/-- The instruction that a group of six elements encodes (R70, R72, R80). -/
def decode (c : Config) (t : Tuple) : Except DecodeError Instr :=
  if t.wellFormed c.p then
    match c.mnemonicOf t.opcode with
    | some m => .ok (m.instr t.a t.b t.c t.d t.e)
    | none => .error (.opcodeUnknown t.opcode)
  else .error .elementOutOfRange

/-- Decoding of any list of numbers: total, and rejecting by name (R70). -/
def decodeElements (c : Config) : List Nat → Except DecodeError Instr
  | [o, x1, x2, x3, x4, x5] => decode c ⟨o, x1, x2, x3, x4, x5⟩
  | l => .error (.wrongLength l.length)

/-- The six elements of an instruction, `OPC` of its mnemonic first (R70, R78). -/
def encode (c : Config) (i : Instr) : Tuple :=
  match i with
  | .loadw x1 x2 x3 x4 x5 => ⟨c.opcodeOf .loadw, x1, x2, x3, x4, x5⟩
  | .storew x1 x2 x3 x4 x5 => ⟨c.opcodeOf .storew, x1, x2, x3, x4, x5⟩
  | .jal x1 x2 x3 x4 x5 => ⟨c.opcodeOf .jal, x1, x2, x3, x4, x5⟩
  | .beq x1 x2 x3 x4 x5 => ⟨c.opcodeOf .beq, x1, x2, x3, x4, x5⟩
  | .bne x1 x2 x3 x4 x5 => ⟨c.opcodeOf .bne, x1, x2, x3, x4, x5⟩
  | .terminate x1 x2 x3 x4 x5 => ⟨c.opcodeOf .terminate, x1, x2, x3, x4, x5⟩
  | .shintw x1 x2 x3 x4 x5 => ⟨c.opcodeOf .shintw, x1, x2, x3, x4, x5⟩
  | .publish x1 x2 x3 x4 x5 => ⟨c.opcodeOf .publish, x1, x2, x3, x4, x5⟩
  | .hintInput x1 x2 x3 x4 x5 => ⟨c.opcodeOf .hintInput, x1, x2, x3, x4, x5⟩
  | .hintBits x1 x2 x3 x4 x5 => ⟨c.opcodeOf .hintBits, x1, x2, x3, x4, x5⟩
  | .fadd x1 x2 x3 x4 x5 => ⟨c.opcodeOf .fadd, x1, x2, x3, x4, x5⟩
  | .fsub x1 x2 x3 x4 x5 => ⟨c.opcodeOf .fsub, x1, x2, x3, x4, x5⟩
  | .fmul x1 x2 x3 x4 x5 => ⟨c.opcodeOf .fmul, x1, x2, x3, x4, x5⟩
  | .fdiv x1 x2 x3 x4 x5 => ⟨c.opcodeOf .fdiv, x1, x2, x3, x4, x5⟩
  | .fe4add x1 x2 x3 x4 x5 => ⟨c.opcodeOf .fe4add, x1, x2, x3, x4, x5⟩
  | .fe4sub x1 x2 x3 x4 x5 => ⟨c.opcodeOf .fe4sub, x1, x2, x3, x4, x5⟩
  | .bbe4mul x1 x2 x3 x4 x5 => ⟨c.opcodeOf .bbe4mul, x1, x2, x3, x4, x5⟩
  | .bbe4inv x1 x2 x3 x4 x5 => ⟨c.opcodeOf .bbe4inv, x1, x2, x3, x4, x5⟩
  | .compressPoseidon2 x1 x2 x3 x4 x5 => ⟨c.opcodeOf .compressPoseidon2, x1, x2, x3, x4, x5⟩
  | .permPoseidon2 x1 x2 x3 x4 x5 => ⟨c.opcodeOf .permPoseidon2, x1, x2, x3, x4, x5⟩
  | .permKeccak x1 x2 x3 x4 x5 => ⟨c.opcodeOf .permKeccak, x1, x2, x3, x4, x5⟩
  | .fail x1 x2 x3 x4 x5 => ⟨c.opcodeOf .fail, x1, x2, x3, x4, x5⟩
  | .printf x1 x2 x3 x4 x5 => ⟨c.opcodeOf .printf, x1, x2, x3, x4, x5⟩

/-- The six elements of a group as a list, in the order of R70. -/
def Tuple.toList (t : Tuple) : List Nat := [t.opcode, t.a, t.b, t.c, t.d, t.e]

/-- The reference configuration of R6 and of spec/95_test_vectors.md section 0. The values are the spec's, not
the source's; log entry 2. `LIMB_BITS` is unused while `WORD_SIZE = 1`. -/
def Config.reference : Config where
  p := babyBear
  wordSize := 1
  instWidth := 1
  conversion := .limbs 8
  dom1 := [(0, babyBear)]
  enabled := Mnemonic.all.filter fun m => m != .fail && m != .printf
  opc := #v[0, 1, 2, 3, 4, 5, 6, 7, 8, 9, 10, 11, 12, 13, 14, 15, 16, 17, 18, 19, 20, 21, 22]
  numPublicValues := 0
  hintBitsLen := 31
  keccakWidth := 100

/-- The host's numbering of an instruction's bits: the spec gives the elements no bits, so element `k` of
the group stands in bits `32 k + 31` to `32 k`, opcode first. DESIGN CHOICE, log entry 8. -/
def Tuple.ofTableWord (w : Nat) : Tuple :=
  ⟨w % 2 ^ 32, w / 2 ^ 32 % 2 ^ 32, w / 2 ^ 64 % 2 ^ 32, w / 2 ^ 96 % 2 ^ 32, w / 2 ^ 128 % 2 ^ 32, w / 2 ^ 160 % 2 ^ 32⟩

/-- The instruction the decoder reads from the bits `w` under the reference configuration. The bits above
the given number are 0 by the host's convention, so the number itself selects nothing. -/
def decodeTableWord (_nbits w : Nat) : Option Instr := (decode Config.reference (Tuple.ofTableWord w)).toOption

end Sys2Proof
end

