-- ==== Sys2Proof/Machine/State.lean ====
section
/-! DEFINITION. The state of the machine, spec/10_state.md R30: plain data, with the launch parameters of R6 that
are data carried in read-only fields (log entry 1). -/

namespace Sys2Proof.Machine

/-- One value given to every address from `lo` up to, not including, `hi`. -/
structure Fill where
  lo : Nat
  hi : Nat
  value : Nat
deriving DecidableEq, Repr

/-- The contents of address space 1 or 2: a partial map from addresses to field elements (R25, R30).
An address that `cells` does not list reads as the first entry of `background` it lies in, and in none is a cell
without a value (R35). The background is part of the launch map and no step changes it. The canonical form is
`Memory.wf`: addresses strictly rising, no entry equal to what its address would read as unlisted. Log entry 5. -/
structure Memory where
  background : List Fill
  cells : List (Nat × Nat)
deriving DecidableEq, Repr

/-- `status` (R31). -/
inductive Status where
  /-- The run goes on. -/
  | running
  /-- Ended by TERMINATE (R107). -/
  | terminated
  /-- Ended by FAIL or by any other fault (R161, R170). -/
  | failed
deriving DecidableEq, Repr

/-- The faults of R171. Each ends the run as `Failed` and changes nothing else (R170): raising one is
`State.raise`, a next state. All are safe: the machine goes on in none of these cases. -/
inductive FaultName where
  /-- FAIL: raised by the instruction FAIL (R161). -/
  | fail
  /-- FETCH: `pc` holds no instruction of the program (R81). -/
  | fetch
  /-- OPCODE_UNKNOWN: the first element is no opcode (R80). -/
  | opcodeUnknown
  /-- OPCODE_DISABLED: the opcode is not in `ENABLED` and not an Excluded one (R80). -/
  | opcodeDisabled
  /-- AS_RESERVED: an access names address space 3 (R46, R47). -/
  | asReserved
  /-- AS_INVALID: an access names address space 4 or more (R46, R47). -/
  | asInvalid
  /-- WRITE_IMM: a write names address space 0 (R47). -/
  | writeImm
  /-- MISALIGNED: an address is no multiple of `WORD_SIZE` (R49). -/
  | misaligned
  /-- OUT_OF_DOMAIN: an address outside `Dom(as)`, or a word past `p - 1` (R46, R47). -/
  | outOfDomain
  /-- UNINIT_READ: a read of a cell without a value (R46). -/
  | uninitRead
  /-- HINT_EMPTY: SHINTW with an empty hint stream (R108). -/
  | hintEmpty
  /-- NO_INPUT: HINT_INPUT with no input left (R118). -/
  | noInput
  /-- PUBLIC_INDEX: PUBLISH with an index of no public value (R109). -/
  | publicIndex
  /-- PUBLIC_MISMATCH: PUBLISH with a value other than the public value (R109). -/
  | publicMismatch
  /-- DIV_ZERO: FDIV by zero (R134). -/
  | divZero
  /-- INV_ZERO: BBE4INV of zero (R144). -/
  | invZero
  /-- OFFSET_UNSUPPORTED: PERM_POSEIDON2 or PERM_KECCAK with a nonzero offset (R153, R154). -/
  | offsetUnsupported
  /-- KECCAK_WORD_SIZE: PERM_KECCAK when `WORD_SIZE` is not 1 (R154). -/
  | keccakWordSize
  /-- KECCAK_RANGE: PERM_KECCAK reads an element of `2^16` or more (R154). -/
  | keccakRange
deriving DecidableEq, Repr

/-- Why a launch is refused: the conditions of spec/70_reset_and_hazards.md R193, by item. -/
inductive LaunchProblem where
  | pNotPrime | wordSizeZero | instWidthOutOfRange
  | conversionBroken
  | opcNotInjective
  | coreNotEnabled | excludedEnabled
  | babyBearNeeded | keccakNeedsWordSizeOne
  | programEmpty | programTooLong | programElementOutOfRange
  | dom1OutsideField | initialMemoryBad | inputsBad | publicValuesBad
deriving DecidableEq, Repr

/-- Why the machine takes no step (R31). No instruction answers with one: both are raised by `step` alone. -/
inductive Fault where
  /-- The run was ended by TERMINATE. Safe: there is no further step (R31). -/
  | runTerminated
  /-- The run has failed; the name that was reported to the host (R182), if any. Safe: as above. -/
  | runFailed (reported : Option FaultName)
deriving DecidableEq, Repr

/-- What is no machine or no program of this machine. -/
inductive Refusal where
  /-- An instruction without a meaning in the model; no arm of `exec` answers so. Safe. -/
  | notModelled (mnemonic : String)
  /-- The program holds a number that is no element of F: such a program is refused at load (R72, R193),
  so `step` refuses to run it. Safe. -/
  | notAProgram
  /-- Raised by `Launch.load`: the launch breaks a condition of R193. Safe. -/
  | badLaunch (why : LaunchProblem)
deriving DecidableEq, Repr

/-- The complete architectural state (R30), after the launch parameters and before the model's own field. -/
structure State where
  /-- The configuration (R6). No step changes it (R182). -/
  cfg : Config
  /-- `PROGRAM`, the program ROM: instruction `k` stands at code address `k * INST_WIDTH` (R21). No step
  changes it (R58). -/
  program : List Tuple
  /-- `PV`, the public values (R29). No step changes them. -/
  pv : List Nat
  /-- The program counter (R20). -/
  pc : Nat
  /-- `M[1]`, the registers (R22, R25). -/
  regs : Memory
  /-- `M[2]`, the memory (R25). -/
  mem : Memory
  /-- `hint_stream`, next word first (R27). -/
  hintStream : List Word
  /-- `inputs`, next input first (R28). -/
  inputs : List (List Word)
  /-- `print_log`, oldest first (R32). -/
  printLog : List Nat
  /-- `verifiable` (R33). -/
  verifiable : Bool
  /-- `status` (R31). -/
  status : Status
  /-- The model's own field: the fault name that R170 reports to the host. Log entry 6. -/
  report : Option FaultName
deriving DecidableEq, Repr

/-- The outcome of a step of this machine. -/
abbrev Out := Host.Outcome State Fault Refusal

/-- The machine right after launch (R35, R190) with the reference configuration and nothing supplied by the
host but a register map that is 0 at every address of its domain (log entries 2, 3 and 4): no program, no inputs, no public
values. -/
def State.reset : State where
  cfg := Config.reference
  program := []
  pv := []
  pc := 0
  regs := ⟨[⟨0, Config.reference.p, 0⟩], []⟩
  mem := ⟨[], []⟩
  hintStream := []
  inputs := []
  printLog := []
  verifiable := true
  status := .running
  report := none

end Sys2Proof.Machine
end

