-- ==== Sys2Proof/Machine/Memory.lean ====
section
/-! DEFINITION. The contents of one address space as a map from addresses to field elements, kept in one
canonical form (spec/10_state.md R25). -/

namespace Sys2Proof.Machine

/-- The value listed for an address. -/
def lookupCell (a : Nat) : List (Nat × Nat) → Option Nat
  | [] => none
  | (x, v) :: r => if x = a then some v else lookupCell a r

/-- The list with the value of one address set, in rising order of addresses. -/
def insertCell (a : Nat) (v : Nat) : List (Nat × Nat) → List (Nat × Nat)
  | [] => [(a, v)]
  | (x, w) :: r =>
    if a < x then (a, v) :: (x, w) :: r
    else if a = x then (a, v) :: r
    else (x, w) :: insertCell a v r

/-- The list without one address. -/
def eraseCell (a : Nat) : List (Nat × Nat) → List (Nat × Nat)
  | [] => []
  | (x, w) :: r => if x = a then r else (x, w) :: eraseCell a r

/-- The value of the first range of a background that an address lies in: what the address reads as while no cell is
listed for it. -/
def fillAt (a : Nat) : List Fill → Option Nat
  | [] => none
  | f :: r => if f.lo ≤ a ∧ a < f.hi then some f.value else fillAt a r

/-- The value of one address: the model's read of one element. `none` is a cell without a value (R46). -/
def Memory.read (m : Memory) (a : Nat) : Option Nat :=
  match lookupCell a m.cells with
  | some v => some v
  | none => fillAt a m.background

/-- `m` with `[a] <- v`; writing what the address reads as unlisted removes the entry. -/
def Memory.write (m : Memory) (a : Nat) (v : Nat) : Memory :=
  if fillAt a m.background = some v then { m with cells := eraseCell a m.cells }
  else { m with cells := insertCell a v m.cells }

/-- The elements of a word written to consecutive addresses, the first at `a` (R47). -/
def Memory.writeRun (m : Memory) (a : Nat) : Word → Memory
  | [] => m
  | v :: w => (m.write a v).writeRun (a + 1) w

/-- The canonical form: addresses strictly rising, and no entry equal to what its address reads as unlisted. -/
abbrev Memory.wf (m : Memory) : Prop :=
  (m.cells.map Prod.fst).Pairwise (· < ·) ∧ ∀ c ∈ m.cells, fillAt c.1 m.background ≠ some c.2

end Sys2Proof.Machine
end

