-- ==== Sys2Proof/Machine/Field.lean ====
section
/-! DEFINITION. Arithmetic of the prime field F (spec/00_scope.md R7, spec/41_field_arithmetic.md R135) and of its
quartic extension by `x^4 - 11` (spec/42_extension_field.md R140 to R146). Every operation is exact in the
integers and is then reduced modulo `p` into `[0, p)`. -/

namespace Sys2Proof.Machine

/-- The element of F that an integer stands for (R7). -/
def toFe (p : Nat) (z : Int) : Nat := (z % (p : Int)).toNat

/-- Addition in F (R7, R131). -/
def feAdd (p : Nat) (x y : Nat) : Nat := (x + y) % p

/-- Subtraction in F (R7, R132). -/
def feSub (p : Nat) (x y : Nat) : Nat := toFe p (x - y)

/-- Multiplication in F (R7, R133). -/
def feMul (p : Nat) (x y : Nat) : Nat := x * y % p

/-- Square and multiply on the binary digits of the exponent; the first argument bounds their number. -/
def fePowDigits (p : Nat) : Nat → Nat → Nat → Nat
  | 0, _, _ => 1 % p
  | n + 1, b, k =>
    if k = 0 then 1 % p
    else if k % 2 = 1 then b * fePowDigits p n (b * b % p) (k / 2) % p
    else fePowDigits p n (b * b % p) (k / 2)

/-- `b ^ k` in F. -/
def fePow (p : Nat) (b : Nat) (k : Nat) : Nat := fePowDigits p (Nat.log2 k + 1) b k

/-- `inv y = y^(p-2) mod p`, the multiplicative inverse of a nonzero `y` (R134). -/
def feInv (p : Nat) (y : Nat) : Nat := fePow p y (p - 2)

/-- `F::bits()`, `ceil(log2 p)` (R6, G2). -/
def feBits (p : Nat) : Nat := Nat.log2 (p - 1) + 1

/-- An element `c0 + c1 x + c2 x^2 + c3 x^3` of the quartic extension (R140). -/
structure Ext where
  c0 : Nat
  c1 : Nat
  c2 : Nat
  c3 : Nat
deriving DecidableEq, Repr

/-- Coefficient-wise addition (R141). -/
def extAdd (p : Nat) (x y : Ext) : Ext :=
  ⟨feAdd p x.c0 y.c0, feAdd p x.c1 y.c1, feAdd p x.c2 y.c2, feAdd p x.c3 y.c3⟩

/-- Coefficient-wise subtraction (R142). -/
def extSub (p : Nat) (x y : Ext) : Ext :=
  ⟨feSub p x.c0 y.c0, feSub p x.c1 y.c1, feSub p x.c2 y.c2, feSub p x.c3 y.c3⟩

/-- The product reduced by `x^4 = 11` (R143). -/
def extMul (p : Nat) (x y : Ext) : Ext :=
  ⟨toFe p (x.c0 * y.c0 + 11 * (x.c1 * y.c3 + x.c2 * y.c2 + x.c3 * y.c1)),
   toFe p (x.c0 * y.c1 + x.c1 * y.c0 + 11 * (x.c2 * y.c3 + x.c3 * y.c2)),
   toFe p (x.c0 * y.c2 + x.c1 * y.c1 + x.c2 * y.c0 + 11 * x.c3 * y.c3),
   toFe p (x.c0 * y.c3 + x.c1 * y.c2 + x.c2 * y.c1 + x.c3 * y.c0)⟩

/-- `n0` of R144: the constant coefficient of `u * u'`. -/
def extN0 (p : Nat) (u : Ext) : Nat := toFe p (u.c0 * u.c0 - 11 * (2 * u.c1 * u.c3 - u.c2 * u.c2))

/-- `n2` of R144: the `x^2` coefficient of `u * u'`. -/
def extN2 (p : Nat) (u : Ext) : Nat := toFe p (2 * u.c0 * u.c2 - u.c1 * u.c1 - 11 * u.c3 * u.c3)

/-- `s` of R144, the source's `c`: an element of F. -/
def extS (p : Nat) (u : Ext) : Nat :=
  toFe p ((extN0 p u : Int) * extN0 p u - 11 * (extN2 p u : Int) * extN2 p u)

/-- The inverse of `u` by the source's derivation, `none` when `s = 0` (R144). -/
def extInv (p : Nat) (u : Ext) : Option Ext :=
  if extS p u = 0 then none
  else
    let n0 : Int := extN0 p u
    let n2 : Int := extN2 p u
    let t : Int := feInv p (extS p u)
    some
      ⟨toFe p ((u.c0 * n0 - 11 * u.c2 * n2) * t),
       toFe p ((-u.c1 * n0 + 11 * u.c3 * n2) * t),
       toFe p ((-u.c0 * n2 + u.c2 * n0) * t),
       toFe p ((u.c1 * n2 - u.c3 * n0) * t)⟩

end Sys2Proof.Machine
end

