-- ==== Sys2Proof/Machine/Operands.lean ====
section
/-! DEFINITION. Words and field elements, and the addresses of multi-word operands (spec/20_memory.md R41 to R45
and R52, spec/30_encoding.md R74). -/

namespace Sys2Proof.Machine

/-- `sum word[i] * 2^(LIMB_BITS * i)`, the sum of R43 before reduction. -/
def limbSum (limbBits : Nat) : Word → Nat
  | [] => 0
  | v :: w => v + 2 ^ limbBits * limbSum limbBits w

/-- `compose : [F; WORD_SIZE] -> F` (R42, R43, R130). -/
def compose (c : Config) (w : Word) : Nat :=
  if c.wordSize = 1 then w.headD 0 % c.p
  else
    match c.conversion with
    | .limbs limbBits => limbSum limbBits w % c.p
    | .firstElement => w.headD 0 % c.p
    | .other id => Config.otherCompose id w % c.p

/-- Element `i` of `decompose v`. -/
def decomposeElem (c : Config) (v : Nat) (i : Nat) : Nat :=
  if c.wordSize = 1 then v
  else
    match c.conversion with
    | .limbs limbBits => v / 2 ^ (limbBits * i) % 2 ^ limbBits
    | .firstElement => if i = 0 then v else 0
    | .other id => Config.otherDecompose id v i % c.p

/-- `decompose : F -> [F; WORD_SIZE]` (R42, R44, R130). -/
def decompose (c : Config) (v : Nat) : Word := (List.range c.wordSize).map (decomposeElem c v)

/-- The address of word `i` of a multi-word operand at `q`: `q + i * WORD_SIZE` in F (R52). -/
def wordAddr (c : Config) (q : Nat) (i : Nat) : Nat := feAdd c.p q (i * c.wordSize)

/-- Bit `i` of the canonical integer `v`, bit 0 the least significant (R10, R119). -/
def bitOf (v : Nat) (i : Nat) : Nat := v / 2 ^ i % 2

end Sys2Proof.Machine
end

