-- ==== Sys2Proof/Machine/Ops.lean ====
section
/-! DEFINITION. The named operations every meaning is made of: the access primitives of spec/20_memory.md R46 to R48
with every check, the default advance of `pc`, and raising a fault, spec/60_exceptions.md R170. There is no
return from a fault (R175), so no operation for one. -/

namespace Sys2Proof.Machine

/-- `raise Fault(NAME)` (R170): the run is failed, nothing else changes; the name is reported to the host. -/
def State.raise (s : State) (f : FaultName) : State := { s with status := .failed, report := some f }

/-- `next()`: `pc <- pc + INST_WIDTH` in F (R10, R20). -/
def State.advance (s : State) : State := { s with pc := feAdd s.cfg.p s.pc s.cfg.instWidth }

/-- `pc <- pc + offset` in F (R103 to R105). -/
def State.jumpBy (s : State) (offset : Nat) : State := { s with pc := feAdd s.cfg.p s.pc offset }

/-- The end of every instruction: its new state, or, where a read or a check faulted, the state as it was
with that fault raised: none of the instruction's writes happens (R11, R170). -/
def State.commit (s : State) (r : Except FaultName State) : Out :=
  match r with
  | .ok t => .next t
  | .error f => .next (s.raise f)

/-- The contents of address space 1 or 2 (R24). -/
def State.space (s : State) (as : Nat) : Memory := if as = 1 then s.regs else s.mem

/-- The state with other contents of address space 1 or 2. -/
def State.setSpace (s : State) (as : Nat) (m : Memory) : State :=
  if as = 1 then { s with regs := m } else { s with mem := m }

/-- The model's read of one element of an address space, without checks; spaces other than 1 and 2 hold
nothing (R26, R34). -/
def State.peek (s : State) (as : Nat) (addr : Nat) : Option Nat :=
  if as = 1 ∨ as = 2 then (s.space as).read addr else none

/-- `addr` is in `Dom(as)` for `as` 1 or 2: `Dom(1)` is configured, `Dom(2)` is all of F (R6, R25). -/
def inDomain (c : Config) (as : Nat) (addr : Nat) : Bool :=
  decide (addr < c.p) && (decide (as ≠ 1) || c.dom1.any fun r => decide (r.1 ≤ addr) && decide (addr < r.2))

/-- The checks that R46 and R47 share, in their order: the address space (D14), the alignment (D11, R49)
and a word past `p - 1` (D12). -/
def accessFault (c : Config) (as ptr : Nat) : Option FaultName :=
  if as = 3 then some .asReserved
  else if 4 ≤ as then some .asInvalid
  else if ptr % c.wordSize ≠ 0 then some .misaligned
  else if c.p < ptr + c.wordSize then some .outOfDomain
  else none

/-- The results of a check made on each member of a list in turn, up to the first fault. -/
def mapOk {α β : Type} (f : α → Except FaultName β) : List α → Except FaultName (List β)
  | [] => .ok []
  | x :: l =>
    match f x with
    | .error e => .error e
    | .ok y =>
      match mapOk f l with
      | .error e => .error e
      | .ok r => .ok (y :: r)

/-- One element of the loop of R46: the domain (D10), then the value (D9). -/
def State.readElem (s : State) (as : Nat) (addr : Nat) : Except FaultName Nat :=
  if inDomain s.cfg as addr then
    match (s.space as).read addr with
    | some v => .ok v
    | none => .error .uninitRead
  else .error .outOfDomain

/-- `ReadWord(as, ptr)` (R46). -/
def State.readWord (s : State) (as ptr : Nat) : Except FaultName Word :=
  if as = 0 then .ok (decompose s.cfg ptr)
  else
    match accessFault s.cfg as ptr with
    | some f => .error f
    | none => mapOk (fun j => s.readElem as (ptr + j)) (List.range s.cfg.wordSize)

/-- `ReadFe(as, ptr)`, the source's `fe[ptr]_as` (R48). -/
def State.readFe (s : State) (as ptr : Nat) : Except FaultName Nat :=
  match s.readWord as ptr with
  | .error f => .error f
  | .ok w => .ok (compose s.cfg w)

/-- Every check of `WriteWord(as, ptr, w)`, in the order of R47. -/
def writeFault (c : Config) (as ptr : Nat) : Option FaultName :=
  if as = 0 then some .writeImm
  else
    match accessFault c as ptr with
    | some f => some f
    | none => if (List.range c.wordSize).all fun j => inDomain c as (ptr + j) then none else some .outOfDomain

/-- The fault of a destination whose address-space element names no space that can be written (R82), whatever its
address. -/
def destFault (as : Nat) : Option FaultName :=
  if as = 0 then some .writeImm else if as = 3 then some .asReserved else if 4 ≤ as then some .asInvalid else none

/-- The stores of `WriteWord(as, ptr, w)`, after its checks (R47). -/
def State.putWord (s : State) (as ptr : Nat) (w : Word) : State := s.setSpace as ((s.space as).writeRun ptr w)

/-- `WriteWord(as, ptr, w)` (R47). -/
def State.writeWord (s : State) (as ptr : Nat) (w : Word) : Except FaultName State :=
  match writeFault s.cfg as ptr with
  | some f => .error f
  | none => .ok (s.putWord as ptr w)

/-- `WriteFe(as, ptr, v)` (R48). -/
def State.writeFe (s : State) (as ptr v : Nat) : Except FaultName State := s.writeWord as ptr (decompose s.cfg v)

/-- The composed words `0 .. n` of a multi-word operand at `q` (R52, R140, R155). -/
def State.readFes (s : State) (as q : Nat) (n : Nat) : Except FaultName (List Nat) :=
  mapOk (fun i => s.readFe as (wordAddr s.cfg q i)) (List.range n)

/-- The words of a list written to words `i, i + 1, ...` of a multi-word operand at `q` (R52). -/
def State.writeWordsFrom (s : State) (as q : Nat) (i : Nat) : List Word → Except FaultName State
  | [] => .ok s
  | w :: r =>
    match s.writeWord as (wordAddr s.cfg q i) w with
    | .error f => .error f
    | .ok t => t.writeWordsFrom as q (i + 1) r

/-- The words of a list written to a multi-word destination, one of no words included, whose address-space element
must name a space that can be written (R52, R82). -/
def State.writeDest (s : State) (as q : Nat) (ws : List Word) : Except FaultName State :=
  match destFault as with
  | some f => .error f
  | none => s.writeWordsFrom as q 0 ws

/-- The decompositions of a list of elements written to the words of a multi-word operand at `q` (R52). -/
def State.writeFes (s : State) (as q : Nat) (vs : List Nat) : Except FaultName State :=
  s.writeWordsFrom as q 0 (vs.map (decompose s.cfg))

/-- `ReadExt(as, ptr)` (R140). -/
def State.readExt (s : State) (as ptr : Nat) : Except FaultName Ext := do
  let c0 ← s.readFe as (wordAddr s.cfg ptr 0)
  let c1 ← s.readFe as (wordAddr s.cfg ptr 1)
  let c2 ← s.readFe as (wordAddr s.cfg ptr 2)
  let c3 ← s.readFe as (wordAddr s.cfg ptr 3)
  .ok ⟨c0, c1, c2, c3⟩

/-- `WriteExt(as, ptr, r)` (R140). -/
def State.writeExt (s : State) (as ptr : Nat) (r : Ext) : Except FaultName State :=
  s.writeFes as ptr [r.c0, r.c1, r.c2, r.c3]

end Sys2Proof.Machine
end

