-- ==== Sys2Proof/Machine/Control.lean ====
section
/-! DEFINITION. JAL, BEQ and BNE, spec/40_core.md section 3. -/

namespace Sys2Proof.Machine

/-- JAL (R103): the link is written, and both sums are of the `pc` of the JAL itself. -/
def execJal (a b d : Nat) (s : State) : Out :=
  s.commit do
    let t ← s.writeFe d a (feAdd s.cfg.p s.pc s.cfg.instWidth)
    .ok (t.jumpBy b)

/-- The two branches: compare the words at `a` in `d` and `b` in `e`, and jump by `offset` when `taken` says so
of their equality (R104, R105). -/
def State.branch (s : State) (a b offset d e : Nat) (taken : Bool → Bool) : Out :=
  s.commit do
    let x ← s.readWord d a
    let y ← s.readWord e b
    .ok (if taken (wordEq x y) then s.jumpBy offset else s.advance)

/-- BEQ (R104). -/
def execBeq (a b c d e : Nat) (s : State) : Out := s.branch a b c d e fun eq => eq

/-- BNE (R105). -/
def execBne (a b c d e : Nat) (s : State) : Out := s.branch a b c d e fun eq => !eq

end Sys2Proof.Machine
end

