-- ==== Sys2Proof/Machine/Excluded.lean ====
section
/-! DEFINITION. FAIL and PRINTF, spec/44_excluded.md: never enabled, performed when met (R80, R160). -/

namespace Sys2Proof.Machine

/-- FAIL (R161): raises the fault FAIL, so that the run is failed and nothing else changes. -/
def execFail (s : State) : Out := .next (s.raise .fail)

/-- PRINTF (R162): a value is printed, and the run can no longer be verified (R33). -/
def execPrintf (a d : Nat) (s : State) : Out :=
  s.commit do
    let v ← s.readFe d a
    .ok { s.advance with printLog := s.printLog ++ [v], verifiable := false }

end Sys2Proof.Machine
end

