-- ==== Sys2Proof/Machine/ExtField.lean ====
section
/-! DEFINITION. FE4ADD, FE4SUB, BBE4MUL and BBE4INV, spec/42_extension_field.md. All source words are read before
any destination word is written (R145). -/

namespace Sys2Proof.Machine

/-- What the three binary operations share (R140, R145). -/
def State.extOp (s : State) (a b c d e : Nat) (op : Ext → Ext → Ext) : Out :=
  s.commit do
    let x ← s.readExt d b
    let y ← s.readExt e c
    let t ← s.writeExt d a (op x y)
    .ok t.advance

/-- FE4ADD (R141). -/
def execFe4add (a b c d e : Nat) (s : State) : Out := s.extOp a b c d e (extAdd s.cfg.p)

/-- FE4SUB (R142). -/
def execFe4sub (a b c d e : Nat) (s : State) : Out := s.extOp a b c d e (extSub s.cfg.p)

/-- BBE4MUL (R143). -/
def execBbe4mul (a b c d e : Nat) (s : State) : Out := s.extOp a b c d e (extMul s.cfg.p)

/-- BBE4INV (R144): inversion of zero raises INV_ZERO (D24). -/
def execBbe4inv (a b d : Nat) (s : State) : Out :=
  s.commit do
    let u ← s.readExt d b
    match extInv s.cfg.p u with
    | none => .error .invZero
    | some r =>
      let t ← s.writeExt d a r
      .ok t.advance

end Sys2Proof.Machine
end

