-- ==== Sys2Proof/Machine/FieldArith.lean ====
section
/-! DEFINITION. FADD, FSUB, FMUL and FDIV, spec/41_field_arithmetic.md. -/

namespace Sys2Proof.Machine

/-- What the four share (R130): two composed source words, an operation, the decomposed result written. -/
def State.fieldOp (s : State) (a b c d e : Nat) (op : Nat → Nat → Except FaultName Nat) : Out :=
  s.commit do
    let x ← s.readFe d b
    let y ← s.readFe e c
    let z ← op x y
    let t ← s.writeFe d a z
    .ok t.advance

/-- FADD (R131). -/
def execFadd (a b c d e : Nat) (s : State) : Out := s.fieldOp a b c d e fun x y => .ok (feAdd s.cfg.p x y)

/-- FSUB (R132): the minuend is `b`. -/
def execFsub (a b c d e : Nat) (s : State) : Out := s.fieldOp a b c d e fun x y => .ok (feSub s.cfg.p x y)

/-- FMUL (R133). -/
def execFmul (a b c d e : Nat) (s : State) : Out := s.fieldOp a b c d e fun x y => .ok (feMul s.cfg.p x y)

/-- FDIV (R134): the dividend is `b`; division by zero raises DIV_ZERO (D24). -/
def execFdiv (a b c d e : Nat) (s : State) : Out :=
  s.fieldOp a b c d e fun x y =>
    if y = 0 then .error .divZero else .ok (feMul s.cfg.p x (feInv s.cfg.p y))

end Sys2Proof.Machine
end

