-- ==== Sys2Proof/Machine/Hash.lean ====
section
/-! DEFINITION. COMPRESS_POSEIDON2, PERM_POSEIDON2 and PERM_KECCAK, spec/43_hash_precompiles.md. The permutations are
the configuration's, uninterpreted; each meaning is a data movement around the permutation it is given. -/

namespace Sys2Proof.Machine

/-- `poseidon2_perm : F^16 -> F^16` (R150, D27): an uninterpreted function, its results in F. Log entry 9. -/
def poseidon2Perm (p : Nat) (st : List Nat) : List Nat :=
  (List.range poseidonWidth).map fun i => Config.poseidon2Out st i % p

/-- `keccak_f` on `width` values of 16 bits (R151, D26): an uninterpreted function, its results below `2^16`.
Log entry 10. -/
def keccakF (width : Nat) (st : List Nat) : List Nat :=
  (List.range width).map fun i => Config.keccakOut st i % 2 ^ 16

/-- The data movement of COMPRESS_POSEIDON2 around a permutation (R152). -/
def State.compressWith (s : State) (perm : List Nat → List Nat) (a b c d e : Nat) : Except FaultName State := do
  let qa ← s.readFe d a
  let qb ← s.readFe d b
  let qc ← s.readFe d c
  let left ← s.readFes e qb chunk
  let right ← s.readFes e qc chunk
  let t ← s.writeFes e qa ((perm (left ++ right)).take chunk)
  .ok t.advance

/-- The data movement of PERM_POSEIDON2 around a permutation (R153). -/
def State.permuteWith (s : State) (perm : List Nat → List Nat) (a b c d e : Nat) : Except FaultName State := do
  if b ≠ 0 then .error .offsetUnsupported
  else
    let qa ← s.readFe d a
    let qc ← s.readFe d c
    let st ← s.readFes e qc poseidonWidth
    let t ← s.writeFes e qa (perm st)
    .ok t.advance

/-- One element of the keccak state: the element at address `q + i`, which must be a `u16` (R154). -/
def State.readU16 (s : State) (e q : Nat) (i : Nat) : Except FaultName Nat := do
  let w ← s.readWord e (feAdd s.cfg.p q i)
  if 2 ^ 16 ≤ w.headD 0 then .error .keccakRange else .ok (w.headD 0)

/-- The data movement of PERM_KECCAK around a permutation (R154). The addresses step by 1, which is
`WORD_SIZE` here; a result is stored as the element of F it stands for (log entry 10). The
destination's address-space element is checked even when `KECCAK_WIDTH = 0` and there is no word to write (R82, R155;
log entry 36). -/
def State.keccakWith (s : State) (perm : List Nat → List Nat) (a b c d e : Nat) : Except FaultName State := do
  if s.cfg.wordSize ≠ 1 then .error .keccakWordSize
  else if b ≠ 0 then .error .offsetUnsupported
  else
    let qa ← s.readWord d a
    let qc ← s.readWord d c
    let st ← mapOk (fun i => s.readU16 e (qc.headD 0) i) (List.range s.cfg.keccakWidth)
    let t ← s.writeDest e (qa.headD 0) ((perm st).map fun v => [v % s.cfg.p])
    .ok t.advance

/-- COMPRESS_POSEIDON2[CHUNK = 8, PID = 0] (R152). -/
def execCompressPoseidon2 (a b c d e : Nat) (s : State) : Out :=
  s.commit (s.compressWith (poseidon2Perm s.cfg.p) a b c d e)

/-- PERM_POSEIDON2[WIDTH = 16, PID = 0] (R153). -/
def execPermPoseidon2 (a b c d e : Nat) (s : State) : Out :=
  s.commit (s.permuteWith (poseidon2Perm s.cfg.p) a b c d e)

/-- PERM_KECCAK (R154). -/
def execPermKeccak (a b c d e : Nat) (s : State) : Out :=
  s.commit (s.keccakWith (keccakF s.cfg.keccakWidth) a b c d e)

end Sys2Proof.Machine
end

