-- ==== Sys2Proof/Machine/LoadStore.lean ====
section
/-! DEFINITION. LOADW and STOREW, spec/40_core.md section 2. -/

namespace Sys2Proof.Machine

/-- The address of a base plus offset operand: the composed word of the cell at `ptr` in space `d`, plus the
offset, in F (section 2 of 40_core.md; used by LOADW, STOREW and SHINTW). -/
def State.basePlusOffset (s : State) (d ptr offset : Nat) : Except FaultName Nat :=
  match s.readFe d ptr with
  | .error f => .error f
  | .ok base => .ok (feAdd s.cfg.p base offset)

/-- LOADW (R101). -/
def execLoadw (a b c d e : Nat) (s : State) : Out :=
  s.commit do
    let addr ← s.basePlusOffset d c b
    let w ← s.readWord e addr
    let t ← s.writeWord d a w
    .ok t.advance

/-- STOREW (R102). -/
def execStorew (a b c d e : Nat) (s : State) : Out :=
  s.commit do
    let addr ← s.basePlusOffset d c b
    let w ← s.readWord d a
    let t ← s.writeWord e addr w
    .ok t.advance

end Sys2Proof.Machine
end

