-- ==== Sys2Proof/Machine/System.lean ====
section
/-! DEFINITION. TERMINATE, SHINTW, PUBLISH and the phantom instructions HINT_INPUT and HINT_BITS, spec/40_core.md
sections 4 and 5. -/

namespace Sys2Proof.Machine

/-- TERMINATE (R107): the run is accepted; `pc` and everything else unchanged (D18). -/
def execTerminate (s : State) : Out := .next { s with status := .terminated }

/-- SHINTW (R108): the head of the hint stream is written, then popped. -/
def execShintw (a b d e : Nat) (s : State) : Out :=
  s.commit do
    let addr ← s.basePlusOffset d a b
    match s.hintStream with
    | [] => .error .hintEmpty
    | w :: rest =>
      let t ← s.writeWord e addr w
      .ok { t.advance with hintStream := rest }

/-- PUBLISH (R109): a check of a value against the public value at an index. Writes nothing. -/
def execPublish (a b d e : Nat) (s : State) : Out :=
  s.commit do
    let idx ← s.readFe d a
    let val ← s.readFe e b
    if s.cfg.numPublicValues ≤ idx then .error .publicIndex
    else if s.pv[idx]? = some val then .ok s.advance
    else .error .publicMismatch

/-- HINT_INPUT (R118): the next input becomes the hint stream. -/
def execHintInput (s : State) : Out :=
  s.commit
    (match s.inputs with
    | [] => .error .noInput
    | i :: rest => .ok { s.advance with hintStream := i, inputs := rest })

/-- HINT_BITS (R119): `HINT_BITS_LEN` bits of a value become the hint stream, least significant first. -/
def execHintBits (a d : Nat) (s : State) : Out :=
  s.commit do
    let v ← s.readFe d a
    .ok { s.advance with hintStream := (List.range s.cfg.hintBitsLen).map fun i => decompose s.cfg (bitOf v i) }

end Sys2Proof.Machine
end

