-- ==== Sys2Proof/Machine/Dispatch.lean ====
section
/-! DEFINITION. One arm per instruction. The elements an instruction does not use are dropped here (R76). -/

namespace Sys2Proof.Machine

def exec (i : Instr) (s : State) : Host.Outcome State Fault Refusal :=
  match i with
  | .loadw a b c d e => Sys2Proof.Machine.execLoadw a b c d e s
  | .storew a b c d e => Sys2Proof.Machine.execStorew a b c d e s
  | .jal a b _ d _ => Sys2Proof.Machine.execJal a b d s
  | .beq a b c d e => Sys2Proof.Machine.execBeq a b c d e s
  | .bne a b c d e => Sys2Proof.Machine.execBne a b c d e s
  | .terminate _ _ _ _ _ => Sys2Proof.Machine.execTerminate s
  | .shintw a b _ d e => Sys2Proof.Machine.execShintw a b d e s
  | .publish a b _ d e => Sys2Proof.Machine.execPublish a b d e s
  | .hintInput _ _ _ _ _ => Sys2Proof.Machine.execHintInput s
  | .hintBits a _ _ d _ => Sys2Proof.Machine.execHintBits a d s
  | .fadd a b c d e => Sys2Proof.Machine.execFadd a b c d e s
  | .fsub a b c d e => Sys2Proof.Machine.execFsub a b c d e s
  | .fmul a b c d e => Sys2Proof.Machine.execFmul a b c d e s
  | .fdiv a b c d e => Sys2Proof.Machine.execFdiv a b c d e s
  | .fe4add a b c d e => Sys2Proof.Machine.execFe4add a b c d e s
  | .fe4sub a b c d e => Sys2Proof.Machine.execFe4sub a b c d e s
  | .bbe4mul a b c d e => Sys2Proof.Machine.execBbe4mul a b c d e s
  | .bbe4inv a b _ d _ => Sys2Proof.Machine.execBbe4inv a b d s
  | .compressPoseidon2 a b c d e => Sys2Proof.Machine.execCompressPoseidon2 a b c d e s
  | .permPoseidon2 a b c d e => Sys2Proof.Machine.execPermPoseidon2 a b c d e s
  | .permKeccak a b c d e => Sys2Proof.Machine.execPermKeccak a b c d e s
  | .fail _ _ _ _ _ => Sys2Proof.Machine.execFail s
  | .printf a _ _ d _ => Sys2Proof.Machine.execPrintf a d s

end Sys2Proof.Machine
end

