-- ==== Sys2Proof/Machine/Fetch.lean ====
section
/-! DEFINITION. Fetch and dispatch, spec/30_encoding.md R80 and R81: which instruction the next step runs, or how
the step ends without one. -/

namespace Sys2Proof.Machine

/-- The group of six at `pc` (R81). -/
def fetchTuple (s : State) : Except FaultName Tuple :=
  if s.pc % s.cfg.instWidth ≠ 0 then .error .fetch
  else
    match s.program[s.pc / s.cfg.instWidth]? with
    | some t => .ok t
    | none => .error .fetch

/-- Whether the machine performs the opcode: it is enabled, or it is one of the Excluded opcodes, which are
never enabled and are performed when met (R80, R160). -/
def runnable (c : Config) (m : Mnemonic) : Bool := m == .fail || m == .printf || c.enabled.contains m

/-- The instruction the next step runs (R81, then R80), or the outcome of a step that runs none: the run is
over (R31), a fault of the fetch or the dispatch (R80, R81), or a program that is none (R72). -/
def nextInstr (s : State) : Except Out Instr :=
  match s.status with
  | .terminated => .error (.fault .runTerminated)
  | .failed => .error (.fault (.runFailed s.report))
  | .running =>
    match fetchTuple s with
    | .error f => .error (.next (s.raise f))
    | .ok t =>
      match decode s.cfg t with
      | .ok i => if runnable s.cfg i.mnemonic then .ok i else .error (.next (s.raise .opcodeDisabled))
      | .error (.opcodeUnknown _) => .error (.next (s.raise .opcodeUnknown))
      | .error _ => .error (.refused .notAProgram)

/-- The state made ready to run one group of six as its next instruction: the group stands in the program
ROM at `pc` (moved down to the instruction address it lies in, if it lies between two), with copies of it
before, where the program is shorter, and the status is Running. Log entry 8. -/
def State.placeTuple (s : State) (t : Tuple) : State :=
  let k := s.pc / s.cfg.instWidth
  { s with
    program := s.program.take k ++ List.replicate (k - s.program.length) t ++ t :: s.program.drop (k + 1)
    pc := k * s.cfg.instWidth
    status := .running }

end Sys2Proof.Machine
end

