-- ==== Sys2Proof/Machine/Step.lean ====
section
/-! DEFINITION. The step (spec/00_scope.md R17): fetch and dispatch, then the instruction's own meaning. -/

namespace Sys2Proof.Machine

/-- One step of the CPU (R17). -/
def step (s : State) : Host.Outcome State Fault Refusal :=
  match nextInstr s with
  | .ok i => exec i s
  | .error o => o

/-- `s` with the instruction whose bits are `w` placed where the next step fetches (log entry 8). -/
def State.withFetchWord (s : State) (_nbits w : Nat) : State := s.placeTuple (Tuple.ofTableWord w)

end Sys2Proof.Machine
end

