-- ==== Sys2Proof/Machine/Asm.lean ====
section
/-! DEFINITION. The assembler's notation, spec/30_encoding.md R84, R85 and R87: `MNEMONIC a, b, c, d, e` with the five
operands always present, decimal, `-k` a spelling of `p - k`, and LW and SW second spellings. -/

namespace Sys2Proof.Machine

/-- The name of a mnemonic in an assembly line (R84). -/
def asmName : Mnemonic → String
  | .loadw => "LOADW"
  | .storew => "STOREW"
  | .jal => "JAL"
  | .beq => "BEQ"
  | .bne => "BNE"
  | .terminate => "TERMINATE"
  | .shintw => "SHINTW"
  | .publish => "PUBLISH"
  | .hintInput => "HINT_INPUT"
  | .hintBits => "HINT_BITS"
  | .fadd => "FADD"
  | .fsub => "FSUB"
  | .fmul => "FMUL"
  | .fdiv => "FDIV"
  | .fe4add => "FE4ADD"
  | .fe4sub => "FE4SUB"
  | .bbe4mul => "BBE4MUL"
  | .bbe4inv => "BBE4INV"
  | .compressPoseidon2 => "COMPRESS_POSEIDON2"
  | .permPoseidon2 => "PERM_POSEIDON2"
  | .permKeccak => "PERM_KECCAK"
  | .fail => "FAIL"
  | .printf => "PRINTF"

/-- The mnemonic of a spelling, the aliases LW and SW included (R85). -/
def asmMnemonic (name : String) : Option Mnemonic :=
  if name = "LW" then some .loadw
  else if name = "SW" then some .storew
  else Mnemonic.all.find? fun m => asmName m == name

/-- The element an operand is written for: `k` in `[0, p)` is itself, `-k` is `p - k` for `0 < k < p`;
nothing else is reduced (R72, R87). -/
def asmOperand (p : Nat) (k : Int) : Option Nat :=
  if 0 ≤ k ∧ k < p then some k.toNat
  else if -(p : Int) < k ∧ k < 0 then some (p + k).toNat
  else none

/-- The instruction of one assembly line, given as its name and its five integers (R84). -/
def assemble (p : Nat) (name : String) (a b c d e : Int) : Option Instr := do
  let m ← asmMnemonic name
  let a' ← asmOperand p a
  let b' ← asmOperand p b
  let c' ← asmOperand p c
  let d' ← asmOperand p d
  let e' ← asmOperand p e
  some (m.instr a' b' c' d' e')

/-- The number that a row of decimal digits stands for, after the digits already read. -/
def asmDigits (n : Nat) : List Char → Option Nat
  | [] => some n
  | ch :: r => if 48 ≤ ch.toNat ∧ ch.toNat ≤ 57 then asmDigits (10 * n + (ch.toNat - 48)) r else none

/-- The integer of an operand as it is written: decimal digits, after a minus sign or none (R84, R87). -/
def asmInteger : List Char → Option Int
  | [] => none
  | ch :: r =>
    if ch = '-' then
      match r with
      | [] => none
      | _ :: _ => (asmDigits 0 r).map fun n => -(n : Int)
    else (asmDigits 0 (ch :: r)).map fun n => (n : Int)

/-- The operands of a line, which a comma and a blank separate (R84). -/
def asmOperands : List Char → List (List Char)
  | [] => [[]]
  | ch :: r =>
    match asmOperands r with
    | [] => [[ch]]
    | x :: l => if ch = ',' then [] :: x.dropWhile (fun k => k == ' ') :: l else (ch :: x) :: l

/-- The instruction of an assembly line as it is written: a name, a blank, five operands (R84). -/
def assembleLine (p : Nat) (line : String) : Option Instr :=
  match line.toList.span fun ch => ch != ' ' with
  | (_, []) => none
  | (name, _ :: rest) =>
    match (asmOperands rest).mapM asmInteger with
    | some [a, b, c, d, e] => assemble p (String.ofList name) a b c d e
    | _ => none

/-- The assembly line of an instruction (R84). -/
def asmLine (i : Instr) : String :=
  asmName i.mnemonic ++ " " ++ String.intercalate ", " (i.elements.map toString)

end Sys2Proof.Machine
end

