-- ==== Sys2Proof/Machine/Launch.lean ====
section
/-! DEFINITION. The launch, spec/70_reset_and_hazards.md R190 and R193: what the host supplies before the first
step, the conditions each of which is a reason to refuse the launch, and the state a run begins in (R35). -/

namespace Sys2Proof.Machine

/-- What the host supplies before the first step (R182): the configuration, `PROGRAM`, `M0`, `INPUTS`, `PV`. -/
structure Launch where
  cfg : Config
  program : List Tuple
  regs : Memory
  mem : Memory
  inputs : List (List Word)
  pv : List Nat
deriving DecidableEq, Repr

/-- The state at launch (R35). -/
def Launch.state (l : Launch) : State where
  cfg := l.cfg
  program := l.program
  pv := l.pv
  pc := 0
  regs := l.regs
  mem := l.mem
  hintStream := []
  inputs := l.inputs
  printLog := []
  verifiable := true
  status := .running
  report := none

/-- The eight Core opcodes, always enabled (R2, R193 item 4). -/
def coreMnemonics : List Mnemonic :=
  [.loadw, .storew, .jal, .beq, .bne, .terminate, .shintw, .publish]

/-- The opcodes tied to the BabyBear field (R193 item 5). -/
def babyBearMnemonics : List Mnemonic := [.bbe4mul, .bbe4inv, .compressPoseidon2, .permPoseidon2]

/-- The contract `compose(decompose(x)) = x` of a conversion pair (R42). -/
abbrev ConversionOk (c : Config) : Prop := ∀ x < c.p, compose c (decompose c x) = x

/-- R193 item 2: the default pair needs `WORD_SIZE * LIMB_BITS >= F::bits()` when `WORD_SIZE > 1`; a pair the
spec does not write down needs the contract itself. -/
def conversionAdmitted (c : Config) : Bool :=
  decide (c.wordSize = 1) ||
    match c.conversion with
    | .limbs limbBits => decide (feBits c.p ≤ c.wordSize * limbBits)
    | .firstElement => true
    | .other _ => decide (ConversionOk c)

/-- A word of `WORD_SIZE` field elements. -/
abbrev IsWord (c : Config) (w : Word) : Prop := w.length = c.wordSize ∧ ∀ v ∈ w, v < c.p

/-- `M0` of address space `as`: in canonical form, field elements only, and only inside the domain, in its cells
and in its background (R193 item 7). -/
abbrev FitsSpace (c : Config) (as : Nat) (m : Memory) : Prop :=
  m.wf ∧ (∀ x ∈ m.cells, inDomain c as x.1 = true ∧ x.2 < c.p) ∧
    ∀ f ∈ m.background, f.value < c.p ∧ ∀ addr, f.lo ≤ addr → addr < f.hi → inDomain c as addr = true

/-- Whether ranges of addresses cover every address from `lo` up to, not including, `hi`: what each leaves on its two
sides, the others cover. -/
def covers : List (Nat × Nat) → Nat → Nat → Bool
  | [], lo, hi => decide (hi ≤ lo)
  | r :: rs, lo, hi => decide (hi ≤ lo) || (covers rs lo (min hi r.1) && covers rs (max lo r.2) hi)

/-- Whether every address from `lo` up to, not including, `hi` is in `Dom(as)` (R25). -/
def domainCovers (c : Config) (as lo hi : Nat) : Bool :=
  covers [(0, c.p)] lo hi && (decide (as ≠ 1) || covers c.dom1 lo hi)

/-- The check of `FitsSpace`. -/
def fitsSpace (c : Config) (as : Nat) (m : Memory) : Bool :=
  decide m.wf && m.cells.all (fun x => inDomain c as x.1 && decide (x.2 < c.p)) &&
    m.background.all fun f => decide (f.value < c.p) && domainCovers c as f.lo f.hi

/-- The conditions of R193, item by item, each under the name of its failure. -/
def Launch.admits (l : Launch) : LaunchProblem → Bool
  | .pNotPrime => decide l.cfg.p.Prime
  | .wordSizeZero => decide (1 ≤ l.cfg.wordSize)
  | .instWidthOutOfRange => decide (1 ≤ l.cfg.instWidth ∧ l.cfg.instWidth < l.cfg.p)
  | .conversionBroken => conversionAdmitted l.cfg
  | .opcNotInjective => decide l.cfg.OpcOk
  | .coreNotEnabled => decide (∀ m ∈ coreMnemonics, m ∈ l.cfg.enabled)
  | .excludedEnabled => decide (Mnemonic.fail ∉ l.cfg.enabled ∧ Mnemonic.printf ∉ l.cfg.enabled)
  | .babyBearNeeded => decide ((∃ m ∈ babyBearMnemonics, m ∈ l.cfg.enabled) → l.cfg.p = babyBear)
  | .keccakNeedsWordSizeOne => decide (Mnemonic.permKeccak ∈ l.cfg.enabled → l.cfg.wordSize = 1)
  | .programEmpty => decide (1 ≤ l.program.length)
  | .programTooLong => decide (l.program.length * l.cfg.instWidth ≤ l.cfg.p)
  | .programElementOutOfRange => l.program.all fun t => t.wellFormed l.cfg.p
  | .dom1OutsideField => decide (∀ r ∈ l.cfg.dom1, r.2 ≤ l.cfg.p)
  | .initialMemoryBad => fitsSpace l.cfg 1 l.regs && fitsSpace l.cfg 2 l.mem
  | .inputsBad => decide (∀ i ∈ l.inputs, ∀ w ∈ i, IsWord l.cfg w)
  | .publicValuesBad => decide (l.pv.length = l.cfg.numPublicValues ∧ ∀ v ∈ l.pv, v < l.cfg.p)

/-- Every condition, in the order of R193. -/
def launchConditions : List LaunchProblem :=
  [.pNotPrime, .wordSizeZero, .instWidthOutOfRange, .conversionBroken, .opcNotInjective, .coreNotEnabled,
   .excludedEnabled, .babyBearNeeded, .keccakNeedsWordSizeOne, .programEmpty, .programTooLong,
   .programElementOutOfRange, .dom1OutsideField, .initialMemoryBad, .inputsBad, .publicValuesBad]

/-- Loading: the launch state, or the refusal that names the first condition broken, in the order of R193. -/
def Launch.load (l : Launch) : Out :=
  match launchConditions.find? fun q => !l.admits q with
  | some q => .refused (.badLaunch q)
  | none => .next l.state

end Sys2Proof.Machine
end

