-- ==== Sys2Proof/Machine/Run.lean ====
section
/-! DEFINITION. A run and its outcome, spec/60_exceptions.md R184: the steps from a launch, and which of the four
outcomes the launch has. -/

namespace Sys2Proof.Machine

/-- The outcomes of a run (R184). -/
inductive RunOutcome where
  /-- The run ends by TERMINATE and `verifiable` is true. -/
  | accepted
  /-- The run ends as Failed. -/
  | rejected
  /-- The run ends by TERMINATE and `verifiable` is false. -/
  | unverifiable
  /-- The run never ends. -/
  | noOutcome
deriving DecidableEq, Repr

/-- The outcome that the state at the end of a run stands for; a state whose status is Running is the end of no run
(R184). -/
def State.outcome (s : State) : Option RunOutcome :=
  match s.status with
  | .running => none
  | .failed => some .rejected
  | .terminated => some (if s.verifiable then .accepted else .unverifiable)

/-- `n` steps, up to the first that has no next state. -/
def State.runFor (s : State) : Nat → Out
  | 0 => .next s
  | n + 1 =>
    match step s with
    | .next t => t.runFor n
    | o => o

/-- The run from `s` has the outcome `o`: some number of steps ends it so, or, for no outcome, it is Running after
every number of steps (R184). -/
def State.RunsTo (s : State) (o : RunOutcome) : Prop :=
  match o with
  | .noOutcome => ∀ n, ∃ t, s.runFor n = .next t ∧ t.status = .running
  | .accepted | .rejected | .unverifiable => ∃ n t, s.runFor n = .next t ∧ t.outcome = some o

/-- The launch is admitted and its run has the outcome `o` (R184, R193). -/
def Launch.HasOutcome (l : Launch) (o : RunOutcome) : Prop := ∃ s, l.load = .next s ∧ s.RunsTo o

end Sys2Proof.Machine
end

