-- ==== Sys2Proof/Safety.lean ====
section
/-! DEFINITION. What counts as a safe state, in the terms the statements use. -/

namespace Sys2Proof.Machine

/-- Two states agree on the launch parameters: nothing that the host fixes before the run differs (R182). -/
abbrev State.SameLaunch (s t : State) : Prop := t.cfg = s.cfg ∧ t.program = s.program ∧ t.pv = s.pv

/-- Two states agree on everything but `pc` and the address spaces. -/
abbrev State.SameBesides (s t : State) : Prop :=
  s.SameLaunch t ∧ t.hintStream = s.hintStream ∧ t.inputs = s.inputs ∧ t.printLog = s.printLog ∧
    t.verifiable = s.verifiable ∧ t.status = s.status ∧ t.report = s.report

/-- Two states agree on every element of every address space. -/
abbrev State.SameMemory (s t : State) : Prop := ∀ as addr, t.peek as addr = s.peek as addr

/-- `addr` is one of the addresses of the word at `ptr`. -/
abbrev InWord (c : Config) (ptr addr : Nat) : Prop := ptr ≤ addr ∧ addr < ptr + c.wordSize

/-- From `s` to `t`, the word `w` is stored at `ptr` in space `as` and every other element of every address space is
as it was (R47). -/
abbrev State.StoresWord (s t : State) (as ptr : Nat) (w : Word) : Prop :=
  (∀ j < w.length, t.peek as (ptr + j) = w[j]?) ∧
    ∀ as' addr, (as' = as → ¬ InWord s.cfg ptr addr) → t.peek as' addr = s.peek as' addr

/-- From `s` to `t`, the words `ws` are stored at the words of the multi-word operand at `q` in space `as`, a later
word over an earlier one where two have the same address, and every other element of every address space is as
it was (R52). -/
abbrev State.StoresWords (s t : State) (as q : Nat) (ws : List Word) : Prop :=
  (∀ i w, ws[i]? = some w →
      (∀ k, i < k → k < ws.length → wordAddr s.cfg q k ≠ wordAddr s.cfg q i) →
      ∀ j < w.length, t.peek as (wordAddr s.cfg q i + j) = w[j]?) ∧
    ∀ as' addr, (as' = as → ∀ k < ws.length, ¬ InWord s.cfg (wordAddr s.cfg q k) addr) →
      t.peek as' addr = s.peek as' addr

/-- The words of the multi-word operand at `q` compose to `vs` (R52). -/
abbrev State.ReadsFes (s : State) (as q : Nat) (vs : List Nat) : Prop :=
  ∀ i x, vs[i]? = some x → s.readFe as (wordAddr s.cfg q i) = .ok x

/-- The first of the `n` words at `q` that cannot be read faults with `f` (R46, R172). -/
abbrev State.ReadFaults (s : State) (as q n : Nat) (f : FaultName) : Prop :=
  ∃ k < n, (∀ i < k, ∃ x, s.readFe as (wordAddr s.cfg q i) = .ok x) ∧ s.readFe as (wordAddr s.cfg q k) = .error f

/-- Each of the `n` words at `q` passes the checks of a write (R47). -/
abbrev Writable (c : Config) (as q n : Nat) : Prop := ∀ k < n, writeFault c as (wordAddr c q k) = none

/-- The first of the `n` words at `q` that cannot be written faults with `f` (R47, R172). -/
abbrev WriteFaults (c : Config) (as q n : Nat) (f : FaultName) : Prop :=
  ∃ k < n, (∀ i < k, writeFault c as (wordAddr c q i) = none) ∧ writeFault c as (wordAddr c q k) = some f

/-- The instruction raises the fault `f`: the run is failed, nothing else changes, and the name is reported (R170). -/
abbrev Raises (i : Instr) (s : State) (f : FaultName) : Prop :=
  exec i s = .next { s with status := .failed, report := some f }

/-- The four coefficients of an extension element (R140). -/
abbrev Ext.toList (x : Ext) : List Nat := [x.c0, x.c1, x.c2, x.c3]

/-- The values that every state of a run keeps in range, whatever the program does: every element of every
component is an element of F and every word has `WORD_SIZE` of them (R7, R20, R25, R27, R28, R32), each
address space is in its canonical form, and the status goes with the report. -/
structure State.Wf (s : State) : Prop where
  /-- F has at least two elements. -/
  p_gt_one : 1 < s.cfg.p
  pc_lt : s.pc < s.cfg.p
  regs_fit : FitsSpace s.cfg 1 s.regs
  mem_fit : FitsSpace s.cfg 2 s.mem
  hints_fit : ∀ w ∈ s.hintStream, IsWord s.cfg w
  inputs_fit : ∀ i ∈ s.inputs, ∀ w ∈ i, IsWord s.cfg w
  log_lt : ∀ v ∈ s.printLog, v < s.cfg.p
  report_iff : s.status = .failed ↔ s.report.isSome = true

end Sys2Proof.Machine
end

