-- ==== Sys2Proof/Certificates/Slice0/Obligations.lean ====
section
/-! DEFINITION. The statements for the provers. Rule numbers are those of spec/. Nothing here is about a program.

Some clauses rest on what the spec itself decided where its source is silent (D1 to D37 of spec/92_eei_decisions.md):
the default advance of `pc` is D3, the faults of an access are D9 to D14, reads before checks before writes is D15,
and one mechanism for every fault is D16. A docstring names any other decision or log entry its statement rests on.
The field `report` is the model's own (log entry 6), as is the canonical form `wf` of an address space (log entry 5). -/

open Sys2Proof Sys2Proof.Machine

/-! ### Decoding and encoding -/

/-- Decoding the encoding of any instruction gives it back, for every injective numbering of the opcodes into F and
every value of every element (R70, R77). -/
def Obligations.DecodeOfEncode : Prop :=
  ∀ (c : Config) (i : Instr), c.OpcOk → i.wellFormed c.p = true → decode c (encode c i) = .ok i

/-- A group of six that decodes is the encoding of the instruction it decodes to: nothing of it is dropped, and every
element of the instruction is in F (R70, R72). -/
def Obligations.EncodeOfDecode : Prop :=
  ∀ (c : Config) (t : Tuple) (i : Instr), decode c t = .ok i → encode c i = t ∧ i.wellFormed c.p = true

/-- A group of six elements of F is no instruction exactly when its first element is the number of no mnemonic; a group
with an element outside F is no program of the machine (R72, R80). -/
def Obligations.DecodeRejectsExactlyUnknownOpcodes : Prop :=
  ∀ (c : Config) (t : Tuple),
    (t.opcode < c.p ∧ t.a < c.p ∧ t.b < c.p ∧ t.c < c.p ∧ t.d < c.p ∧ t.e < c.p →
      (decode c t = .error (.opcodeUnknown t.opcode) ↔ ∀ m, c.opcodeOf m ≠ t.opcode) ∧
      ((∃ i, decode c t = .ok i) ↔ ∃ m, c.opcodeOf m = t.opcode)) ∧
    (c.p ≤ t.opcode ∨ c.p ≤ t.a ∨ c.p ≤ t.b ∨ c.p ≤ t.c ∨ c.p ≤ t.d ∨ c.p ≤ t.e →
      decode c t = .error .elementOutOfRange)

/-- Groups of six written out from R78 and the examples of the rules decode to the instructions they stand for; one of
each family of the opcode table. -/
def Obligations.SampleGroupsDecode : Prop :=
  decodeElements .reference [0, 8, 3, 4, 1, 2] = .ok (.loadw 8 3 4 1 2) ∧
  decodeElements .reference [4, 3, 0, 2013265918, 1, 0] = .ok (.bne 3 0 2013265918 1 0) ∧
  decodeElements .reference [9, 6, 0, 0, 1, 0] = .ok (.hintBits 6 0 0 1 0) ∧
  decodeElements .reference [13, 3, 2, 3, 1, 0] = .ok (.fdiv 3 2 3 1 0) ∧
  decodeElements .reference [16, 24, 16, 20, 1, 1] = .ok (.bbe4mul 24 16 20 1 1) ∧
  decodeElements .reference [19, 1, 0, 3, 1, 2] = .ok (.permPoseidon2 1 0 3 1 2) ∧
  decodeElements .reference [22, 5, 0, 0, 1, 0] = .ok (.printf 5 0 0 1 0) ∧
  decodeElements .reference [23, 0, 0, 0, 0, 0] = .error (.opcodeUnknown 23)

/-- The assembly of R84, R85 and R87: a line with all five operands in `[0, p)` is the instruction, LW and SW are
LOADW and STOREW, and `-k` is the element `p - k`, whose addition to `pc` is a jump back by `k`. The notation is the spec's
decision D30 (log entry 32); here a line is its name and five integers. -/
def Obligations.AssemblyNamesTheInstruction : Prop :=
  ∀ p : Nat,
    (∀ (m : Mnemonic) (a b c d e : Nat), a < p → b < p → c < p → d < p → e < p →
      assemble p (asmName m) a b c d e = some (m.instr a b c d e)) ∧
    asmMnemonic "LW" = some .loadw ∧ asmMnemonic "SW" = some .storew ∧
    ∀ k : Nat, 0 < k → k < p → asmOperand p (-k) = some (p - k) ∧
      ∀ pc : Nat, k ≤ pc → pc < p → feAdd p pc (p - k) = pc - k

/-- LW is LOADW and SW is STOREW: one opcode each, two spellings (R85). -/
def Obligations.AliasesNameTheSameInstruction : Prop :=
  ∀ (p : Nat) (a b c d e : Int),
    assemble p "LW" a b c d e = assemble p "LOADW" a b c d e ∧ assemble p "SW" a b c d e = assemble p "STOREW" a b c d e

/-! ### Words, elements and the access primitives -/

/-- Both are the identity when `WORD_SIZE = 1`, whatever the pair (R42). The default pair otherwise (R43, R44): `compose`
of any word, of limbs or not, is the sum of its elements times powers of `2^LIMB_BITS` in F; element `i` of `decompose v`
is `floor(v / 2^(LIMB_BITS*i)) mod 2^LIMB_BITS`; and `compose` undoes `decompose` when
`WORD_SIZE * LIMB_BITS >= F::bits()`, taken as `ceil(log2 p)` (log entry 35). With the examples of R44 and R45. -/
def Obligations.DefaultPairComposes : Prop :=
  (∀ (c : Config) (v : Nat), c.wordSize = 1 → v < c.p → compose c [v] = v ∧ decompose c v = [v]) ∧
  (∀ (c : Config) (limbBits : Nat), c.conversion = .limbs limbBits → 1 < c.wordSize →
    (∀ w : Word, w.length = c.wordSize →
      compose c w = (∑ i ∈ Finset.range c.wordSize, w.getD i 0 * 2 ^ (limbBits * i)) % c.p) ∧
    ∀ v < c.p,
      (∀ i < c.wordSize, (decompose c v)[i]? = some (v / 2 ^ (limbBits * i) % 2 ^ limbBits)) ∧
      (feBits c.p ≤ c.wordSize * limbBits → compose c (decompose c v) = v)) ∧
  decompose { Config.reference with wordSize := 4 } 305419896 = [120, 86, 52, 18] ∧
  decompose { Config.reference with wordSize := 4 } 2013265920 = [0, 0, 0, 120] ∧
  compose { Config.reference with wordSize := 4 } [300, 1, 0, 0] = 556 ∧
  compose { Config.reference with wordSize := 4 } [1, 0, 0, 120] = 0

/-- An operand used with address space 0 is the immediate itself: as a word its decomposition, as an element the operand,
for every conversion pair a launch admits (R42, R48, R74). -/
def Obligations.ImmediateReadsItself : Prop :=
  ∀ (s : State) (x : Nat), 1 ≤ s.cfg.wordSize → conversionAdmitted s.cfg = true → x < s.cfg.p →
    s.readWord 0 x = .ok (decompose s.cfg x) ∧ s.readFe 0 x = .ok x

/-- `ReadWord(as, ptr)` with every check of R46 in its order, and `ReadFe`, which composes the word
that is read and has the same faults (R48). The checks are the spec's decisions D9 to D12 and D14. -/
def Obligations.ReadWordChecks : Prop :=
  ∀ (s : State) (as ptr : Nat), 1 ≤ s.cfg.wordSize →
    (∀ w, s.readWord as ptr = .ok w → s.readFe as ptr = .ok (compose s.cfg w)) ∧
    (∀ f, s.readWord as ptr = .error f → s.readFe as ptr = .error f) ∧
    (as = 0 → s.readWord as ptr = .ok (decompose s.cfg ptr)) ∧
    (as = 3 → s.readWord as ptr = .error .asReserved) ∧
    (4 ≤ as → s.readWord as ptr = .error .asInvalid) ∧
    (as = 1 ∨ as = 2 →
      (ptr % s.cfg.wordSize ≠ 0 → s.readWord as ptr = .error .misaligned) ∧
      (ptr % s.cfg.wordSize = 0 →
        (s.cfg.p - 1 < ptr + s.cfg.wordSize - 1 → s.readWord as ptr = .error .outOfDomain) ∧
        (ptr + s.cfg.wordSize - 1 ≤ s.cfg.p - 1 →
          (∀ j < s.cfg.wordSize, (∀ i < j, inDomain s.cfg as (ptr + i) = true ∧ s.peek as (ptr + i) ≠ none) →
            (inDomain s.cfg as (ptr + j) = false → s.readWord as ptr = .error .outOfDomain) ∧
            (inDomain s.cfg as (ptr + j) = true → s.peek as (ptr + j) = none →
              s.readWord as ptr = .error .uninitRead)) ∧
          ((∀ j < s.cfg.wordSize, inDomain s.cfg as (ptr + j) = true ∧ s.peek as (ptr + j) ≠ none) →
            ∃ w, s.readWord as ptr = .ok w ∧ w.length = s.cfg.wordSize ∧
              ∀ j < s.cfg.wordSize, s.peek as (ptr + j) = w[j]?))))

/-- `WriteWord(as, ptr, w)` with every check of R47 in its order, and its effect: every element of the word stored, and
nothing else changed; and `WriteFe`, which writes the decomposition (R48). The checks are the spec's decisions D10 to D14. -/
def Obligations.WriteWordChecks : Prop :=
  ∀ (s : State) (as ptr : Nat) (w : Word), 1 ≤ s.cfg.wordSize → w.length = s.cfg.wordSize →
    (∀ v, s.writeFe as ptr v = s.writeWord as ptr (decompose s.cfg v)) ∧
    (as = 0 → s.writeWord as ptr w = .error .writeImm) ∧
    (as = 3 → s.writeWord as ptr w = .error .asReserved) ∧
    (4 ≤ as → s.writeWord as ptr w = .error .asInvalid) ∧
    (as = 1 ∨ as = 2 →
      (ptr % s.cfg.wordSize ≠ 0 → s.writeWord as ptr w = .error .misaligned) ∧
      (ptr % s.cfg.wordSize = 0 →
        (s.cfg.p - 1 < ptr + s.cfg.wordSize - 1 → s.writeWord as ptr w = .error .outOfDomain) ∧
        (ptr + s.cfg.wordSize - 1 ≤ s.cfg.p - 1 →
          ((∃ j < s.cfg.wordSize, inDomain s.cfg as (ptr + j) = false) →
            s.writeWord as ptr w = .error .outOfDomain) ∧
          ((∀ j < s.cfg.wordSize, inDomain s.cfg as (ptr + j) = true) → (s.space as).wf →
            ∃ t, s.writeWord as ptr w = .ok t ∧ s.StoresWord t as ptr w ∧ t.pc = s.pc ∧ s.SameBesides t))))

/-- Which addresses exist: all of F in space 2, the configured subset of F in space 1 (R24, R25). -/
def Obligations.DomainsOfTheSpaces : Prop :=
  ∀ (c : Config) (addr : Nat),
    (inDomain c 2 addr = true ↔ addr < c.p) ∧
    (inDomain c 1 addr = true ↔ addr < c.p ∧ ∃ r ∈ c.dom1, r.1 ≤ addr ∧ addr < r.2)

/-- A read returns the value of the most recent write to the same address of the same space (R55): after a word is
written, the same word is read; and a word at any other aligned address, or in the other space, is read as before. -/
def Obligations.ReadAfterWrite : Prop :=
  ∀ (s t : State) (as ptr : Nat) (w : Word), (s.space as).wf → w.length = s.cfg.wordSize →
    s.writeWord as ptr w = .ok t →
    t.readWord as ptr = .ok w ∧ ∀ as' ptr', as' ≠ as ∨ ptr' ≠ ptr → t.readWord as' ptr' = s.readWord as' ptr'

/-- Address spaces in canonical form that read the same everywhere are the same data. -/
def Obligations.EqualReadsEqualMemory : Prop :=
  ∀ m m' : Memory, m.wf → m'.wf → m.background = m'.background → (∀ addr, m.read addr = m'.read addr) → m = m'

/-- Word equality is equality of every element (R106, the spec's decision D36). -/
def Obligations.WordEqualityIsElementwise : Prop := ∀ v w : Word, wordEq v w = true ↔ v = w

/-! ### The step, faults and the end of a run -/

/-- When the status is Running and the group at `pc` decodes to an instruction the machine performs, the step is `exec`
of that instruction at that state, with nothing added (R17, R80, R81). -/
def Obligations.StepRunsTheDecodedInstruction : Prop :=
  ∀ (s : State) (k : Nat) (t : Tuple) (i : Instr), s.status = .running → 1 ≤ s.cfg.instWidth →
    s.pc = k * s.cfg.instWidth → s.program[k]? = some t → decode s.cfg t = .ok i →
    (i.mnemonic = .fail ∨ i.mnemonic = .printf ∨ i.mnemonic ∈ s.cfg.enabled) → step s = exec i s

/-- Fetch (R81): a `pc` that is no multiple of INST_WIDTH, or at or beyond the end of the program, raises FETCH; any
other `pc` fetches the group at its index. The faults are the spec's decision D17. -/
def Obligations.FetchFollowsProgramCounter : Prop :=
  ∀ s : State, s.status = .running → 1 ≤ s.cfg.instWidth →
    (s.pc % s.cfg.instWidth ≠ 0 → step s = .next { s with status := .failed, report := some .fetch }) ∧
    (s.pc % s.cfg.instWidth = 0 →
      (s.program.length ≤ s.pc / s.cfg.instWidth →
        step s = .next { s with status := .failed, report := some .fetch }) ∧
      (∀ h : s.pc / s.cfg.instWidth < s.program.length,
        fetchTuple s = .ok (s.program[s.pc / s.cfg.instWidth]'h)))

/-- Dispatch (R80): an opcode of no mnemonic raises OPCODE_UNKNOWN; one that is known, not FAIL or PRINTF and not
enabled raises OPCODE_DISABLED; FAIL and PRINTF are performed though they are never enabled. The faults are the
spec's decision D17. -/
def Obligations.DispatchFollowsEnabled : Prop :=
  ∀ (s : State) (t : Tuple), s.status = .running → fetchTuple s = .ok t → t.wellFormed s.cfg.p = true → s.cfg.OpcOk →
    ((∀ m, s.cfg.opcodeOf m ≠ t.opcode) →
      step s = .next { s with status := .failed, report := some .opcodeUnknown }) ∧
    ∀ m, s.cfg.opcodeOf m = t.opcode →
      (m ≠ .fail → m ≠ .printf → m ∉ s.cfg.enabled →
        step s = .next { s with status := .failed, report := some .opcodeDisabled }) ∧
      (m = .fail ∨ m = .printf ∨ m ∈ s.cfg.enabled → step s = exec (m.instr t.a t.b t.c t.d t.e) s)

/-- A machine whose status is not Running takes no step (R31, the spec's decision D16; the outcome is log entry 7). -/
def Obligations.EndedRunTakesNoStep : Prop :=
  ∀ s : State, s.status ≠ .running → ∀ t, step s ≠ .next t

/-- Every instruction, in every state and with every operand, answers a next state: its own effect or a fault raised. -/
def Obligations.EveryInstructionAnswersNext : Prop := ∀ (i : Instr) (s : State), ∃ t, exec i s = .next t

/-- Faults are precise (R170): a step after which the run is failed is the state before it with the status Failed and a
fault name reported, and nothing else changed. -/
def Obligations.FaultsArePrecise : Prop :=
  ∀ s t : State, step s = .next t → t.status = .failed →
    ∃ f, t = { s with status := .failed, report := some f }

/-- Every step keeps every value in range and every address space in its canonical form: elements in F, words of
WORD_SIZE elements, cells only inside their domains (R7, R20, R25, R27, R28). -/
def Obligations.StepKeepsEveryValueInRange : Prop := ∀ s t : State, s.Wf → step s = .next t → t.Wf

/-- The reset state has every value in range and every address space in its canonical form. -/
def Obligations.ResetHasEveryValueInRange : Prop := State.reset.Wf

/-- Every launch that is accepted begins with every value in range and every address space in its canonical form, and
with values in F at addresses of the domains alone (R193 item 7). -/
def Obligations.AcceptedLaunchHasEveryValueInRange : Prop :=
  ∀ (l : Launch) (s : State), l.load = .next s →
    s.Wf ∧ ∀ as addr v, s.peek as addr = some v → inDomain s.cfg as addr = true ∧ v < s.cfg.p

/-- No step changes the configuration, the program ROM or the public values (R58, R182). -/
def Obligations.StepKeepsTheLaunchParameters : Prop :=
  ∀ s t : State, step s = .next t → s.SameLaunch t

/-- How an instruction leaves `pc` (R20): when the run goes on, JAL has added its offset, BEQ and BNE their offset or
INST_WIDTH, and every other instruction INST_WIDTH; when the run ends, `pc` is unchanged. -/
def Obligations.StepSetsTheProgramCounter : Prop :=
  ∀ (s t : State) (i : Instr), s.status = .running → exec i s = .next t →
    (t.status ≠ .running → t.pc = s.pc) ∧
    (t.status = .running →
      (∀ a b c d e, i = .jal a b c d e → t.pc = (s.pc + b) % s.cfg.p) ∧
      (∀ a b c d e, i = .beq a b c d e ∨ i = .bne a b c d e →
        t.pc = (s.pc + c) % s.cfg.p ∨ t.pc = (s.pc + s.cfg.instWidth) % s.cfg.p) ∧
      (i.mnemonic ≠ .jal → i.mnemonic ≠ .beq → i.mnemonic ≠ .bne →
        t.pc = (s.pc + s.cfg.instWidth) % s.cfg.p))

/-- The print log, the inputs and the verifiable flag (R28, R32, R33): only PRINTF appends to the log, and then clears
the flag; only HINT_INPUT takes an input, and it takes the head; nothing sets the flag. -/
def Obligations.OnlyPrintfPrintsAndOnlyHintInputTakesInputs : Prop :=
  ∀ (s t : State) (i : Instr), exec i s = .next t →
    (i.mnemonic ≠ .printf → t.printLog = s.printLog ∧ t.verifiable = s.verifiable) ∧
    (i.mnemonic = .printf → t.printLog = s.printLog ∧ t.verifiable = s.verifiable ∨
      ∃ v, t.printLog = s.printLog ++ [v] ∧ t.verifiable = false) ∧
    (i.mnemonic ≠ .hintInput → t.inputs = s.inputs) ∧
    (i.mnemonic = .hintInput → t.inputs = s.inputs ∨ ∃ x, s.inputs = x :: t.inputs)

/-- A run ends as Terminated by TERMINATE alone, which changes nothing else (R31, R107). -/
def Obligations.OnlyTerminateAccepts : Prop :=
  ∀ s t : State, step s = .next t → t.status = .terminated →
    (∃ a b c d e, nextInstr s = .ok (.terminate a b c d e)) ∧ t = { s with status := .terminated }

/-- A phantom instruction writes no address space: it changes only the hint stream, the inputs and `pc`, unless it
raises a fault (R117). -/
def Obligations.PhantomInstructionsWriteNoMemory : Prop :=
  ∀ (s t : State) (i : Instr), i.mnemonic = .hintInput ∨ i.mnemonic = .hintBits → exec i s = .next t →
    t.regs = s.regs ∧ t.mem = s.mem ∧ t.printLog = s.printLog ∧ t.verifiable = s.verifiable ∧ s.SameLaunch t ∧
    (t.status = s.status ∧ t.report = s.report ∨ ∃ f, t = { s with status := .failed, report := some f })

/-- Elements an instruction does not use may hold anything (R73, R76). -/
def Obligations.UnusedElementsAreIgnored : Prop :=
  ∀ (s : State) (a b c d e x y z u v : Nat),
    exec (.jal a b c d e) s = exec (.jal a b x d y) s ∧
    exec (.terminate a b c d e) s = exec (.terminate x y z u v) s ∧
    exec (.shintw a b c d e) s = exec (.shintw a b x d e) s ∧
    exec (.publish a b c d e) s = exec (.publish a b x d e) s ∧
    exec (.hintInput a b c d e) s = exec (.hintInput x y z u v) s ∧
    exec (.hintBits a b c d e) s = exec (.hintBits a x y d z) s ∧
    exec (.bbe4inv a b c d e) s = exec (.bbe4inv a b x d y) s ∧
    exec (.fail a b c d e) s = exec (.fail x y z u v) s ∧
    exec (.printf a b c d e) s = exec (.printf a x y d z) s

/-- The instructions that fault for certain (R82): one with a destination in space `d` when `d = 0`, and one with a
destination in space `e` when `e = 0`: the three hash precompiles too, PERM_KECCAK even when `KECCAK_WIDTH = 0` and it
has nothing to store (R155). -/
def Obligations.DestinationInImmediatesFaults : Prop :=
  ∀ (s : State) (i : Instr),
    (∃ a b c e, i ∈ [.loadw a b c 0 e, .jal a b c 0 e, .fadd a b c 0 e, .fsub a b c 0 e, .fmul a b c 0 e,
      .fdiv a b c 0 e, .fe4add a b c 0 e, .fe4sub a b c 0 e, .bbe4mul a b c 0 e, .bbe4inv a b c 0 e]) ∨
    (∃ a b c d, i ∈ [.storew a b c d 0, .shintw a b c d 0, .compressPoseidon2 a b c d 0,
      .permPoseidon2 a b c d 0, .permKeccak a b c d 0]) →
    ∃ f, Raises i s f

/-- The outcome of a run (R184, the spec's decision D34): accepted, rejected and unverifiable are what the state at its end
says, no outcome is that of a run that never ends, and the run of every admitted launch has exactly one of the four. -/
def Obligations.OutcomeOfTheRun : Prop :=
  ∀ (l : Launch) (s : State), l.load = .next s →
    (l.HasOutcome .accepted ↔ ∃ n t, s.runFor n = .next t ∧ t.status = .terminated ∧ t.verifiable = true) ∧
    (l.HasOutcome .rejected ↔ ∃ n t, s.runFor n = .next t ∧ t.status = .failed) ∧
    (l.HasOutcome .unverifiable ↔ ∃ n t, s.runFor n = .next t ∧ t.status = .terminated ∧ t.verifiable = false) ∧
    (l.HasOutcome .noOutcome ↔ ∀ n, ∃ t, s.runFor n = .next t ∧ t.status = .running) ∧
    ∃! o, l.HasOutcome o

/-! ### The launch -/

/-- The state at launch (R35): what the host supplies, and otherwise `pc = 0`, Running, verifiable, the hint stream and
the print log empty; and a cell that `M0` gives no value raises UNINIT_READ when read. All but the
entry point are the spec's decisions D4, D9 and D19. -/
def Obligations.LaunchState : Prop :=
  ∀ l : Launch,
    l.state.pc = 0 ∧ l.state.status = .running ∧ l.state.verifiable = true ∧ l.state.hintStream = [] ∧
    l.state.printLog = [] ∧ l.state.inputs = l.inputs ∧ l.state.regs = l.regs ∧ l.state.mem = l.mem ∧
    ∀ as addr, as = 1 ∨ as = 2 → inDomain l.cfg as addr = true → l.state.peek as addr = none →
      l.state.readElem as addr = .error .uninitRead

/-- The reset state of the model has the values R35 gives; the configuration, the empty program, inputs and public
values, and the register map that is 0 at every address of its domain are the model's choices (log entries 2, 3 and 4). -/
def Obligations.ResetState : Prop :=
  State.reset.pc = 0 ∧ State.reset.status = .running ∧ State.reset.verifiable = true ∧
  State.reset.hintStream = [] ∧ State.reset.printLog = [] ∧ State.reset.inputs = [] ∧
  State.reset.program = [] ∧ State.reset.pv = [] ∧ State.reset.report = none ∧
  (∀ addr, State.reset.peek 1 addr = if addr < State.reset.cfg.p then some 0 else none) ∧
  ∀ addr, State.reset.peek 2 addr = none

/-- A launch is accepted exactly when every condition of R193 holds, and then begins in the launch state; otherwise it
is refused, and nothing is a fault of a run. Half of the conditions are the spec's decision D33, and that `INST_WIDTH` is
below `p` is taken from R6 (log entry 29). The rule names the BabyBear prime without its number, which is presumed (log
entry 2), as is `F::bits()`, which `conversionAdmitted` compares with (log entry 35). -/
def Obligations.LaunchRefusesExactlyTheIllFormed : Prop :=
  ∀ l : Launch,
    let c := l.cfg
    let ok :=
      c.p.Prime ∧ 1 ≤ c.wordSize ∧ (1 ≤ c.instWidth ∧ c.instWidth < c.p) ∧ conversionAdmitted c = true ∧ c.OpcOk ∧
      (∀ m ∈ coreMnemonics, m ∈ c.enabled) ∧ (Mnemonic.fail ∉ c.enabled ∧ Mnemonic.printf ∉ c.enabled) ∧
      ((∃ m ∈ babyBearMnemonics, m ∈ c.enabled) → c.p = 2013265921) ∧
      (Mnemonic.permKeccak ∈ c.enabled → c.wordSize = 1) ∧
      1 ≤ l.program.length ∧ l.program.length * c.instWidth ≤ c.p ∧
      (∀ t ∈ l.program, t.opcode < c.p ∧ t.a < c.p ∧ t.b < c.p ∧ t.c < c.p ∧ t.d < c.p ∧ t.e < c.p) ∧
      (∀ r ∈ c.dom1, r.2 ≤ c.p) ∧ FitsSpace c 1 l.regs ∧ FitsSpace c 2 l.mem ∧
      (∀ i ∈ l.inputs, ∀ w ∈ i, IsWord c w) ∧ l.pv.length = c.numPublicValues ∧ ∀ v ∈ l.pv, v < c.p
    (ok → l.load = .next l.state) ∧ (¬ ok → ∃ q, l.load = .refused (.badLaunch q))

/-! ### Core instructions -/

/-- LOADW (R101): the word at base plus offset in `e` is stored, as it is, at `a` in `d`; the accesses fault in the order
of the rule. -/
def Obligations.LoadwLoadsAWord : Prop :=
  ∀ (s : State) (a b c d e : Nat),
    (∀ base w, s.readFe d c = .ok base → s.readWord e ((base + b) % s.cfg.p) = .ok w →
      writeFault s.cfg d a = none → (s.space d).wf →
      ∃ t, exec (.loadw a b c d e) s = .next t ∧ s.StoresWord t d a w ∧
        t.pc = (s.pc + s.cfg.instWidth) % s.cfg.p ∧ s.SameBesides t) ∧
    (∀ f, s.readFe d c = .error f → Raises (.loadw a b c d e) s f) ∧
    (∀ base f, s.readFe d c = .ok base → s.readWord e ((base + b) % s.cfg.p) = .error f →
      Raises (.loadw a b c d e) s f) ∧
    (∀ base w f, s.readFe d c = .ok base → s.readWord e ((base + b) % s.cfg.p) = .ok w →
      writeFault s.cfg d a = some f → Raises (.loadw a b c d e) s f)

/-- STOREW (R102): the word at `a` in `d` is stored at base plus offset in `e`; the accesses fault in the order of the
rule. -/
def Obligations.StorewStoresAWord : Prop :=
  ∀ (s : State) (a b c d e : Nat),
    (∀ base w, s.readFe d c = .ok base → s.readWord d a = .ok w →
      writeFault s.cfg e ((base + b) % s.cfg.p) = none → (s.space e).wf →
      ∃ t, exec (.storew a b c d e) s = .next t ∧ s.StoresWord t e ((base + b) % s.cfg.p) w ∧
        t.pc = (s.pc + s.cfg.instWidth) % s.cfg.p ∧ s.SameBesides t) ∧
    (∀ f, s.readFe d c = .error f → Raises (.storew a b c d e) s f) ∧
    (∀ base f, s.readFe d c = .ok base → s.readWord d a = .error f → Raises (.storew a b c d e) s f) ∧
    (∀ base w f, s.readFe d c = .ok base → s.readWord d a = .ok w →
      writeFault s.cfg e ((base + b) % s.cfg.p) = some f → Raises (.storew a b c d e) s f)

/-- JAL (R103): the address of the next instruction is stored at `a` in `d`, and `pc` is moved by the offset, both from
the `pc` of the JAL. -/
def Obligations.JalLinksAndJumps : Prop :=
  ∀ (s : State) (a b c d e : Nat),
    (writeFault s.cfg d a = none → (s.space d).wf →
      ∃ t, exec (.jal a b c d e) s = .next t ∧
        s.StoresWord t d a (decompose s.cfg ((s.pc + s.cfg.instWidth) % s.cfg.p)) ∧
        t.pc = (s.pc + b) % s.cfg.p ∧ s.SameBesides t) ∧
    (∀ f, writeFault s.cfg d a = some f → Raises (.jal a b c d e) s f)

/-- BEQ (R104): the branch is taken when the two words are equal. -/
def Obligations.BeqBranchesOnEqualWords : Prop :=
  ∀ (s : State) (a b c d e : Nat),
    (∀ x y, s.readWord d a = .ok x → s.readWord e b = .ok y →
      (x = y → exec (.beq a b c d e) s = .next { s with pc := (s.pc + c) % s.cfg.p }) ∧
      (x ≠ y → exec (.beq a b c d e) s = .next { s with pc := (s.pc + s.cfg.instWidth) % s.cfg.p })) ∧
    (∀ f, s.readWord d a = .error f → Raises (.beq a b c d e) s f) ∧
    (∀ x f, s.readWord d a = .ok x → s.readWord e b = .error f → Raises (.beq a b c d e) s f)

/-- BNE (R105): the branch is taken when the two words differ. -/
def Obligations.BneBranchesOnDifferentWords : Prop :=
  ∀ (s : State) (a b c d e : Nat),
    (∀ x y, s.readWord d a = .ok x → s.readWord e b = .ok y →
      (x ≠ y → exec (.bne a b c d e) s = .next { s with pc := (s.pc + c) % s.cfg.p }) ∧
      (x = y → exec (.bne a b c d e) s = .next { s with pc := (s.pc + s.cfg.instWidth) % s.cfg.p })) ∧
    (∀ f, s.readWord d a = .error f → Raises (.bne a b c d e) s f) ∧
    (∀ x f, s.readWord d a = .ok x → s.readWord e b = .error f → Raises (.bne a b c d e) s f)

/-- TERMINATE (R107): the status becomes Terminated, and everything else is unchanged; that `pc` is, is the spec's decision
D18. -/
def Obligations.TerminateEndsTheRun : Prop :=
  ∀ (s : State) (a b c d e : Nat), exec (.terminate a b c d e) s = .next { s with status := .terminated }

/-- SHINTW (R108): the next hint word is popped and stored at pointer plus offset in `e`; the faults in the order of the
rule, none of which pops a word. HINT_EMPTY is the spec's decision D19. -/
def Obligations.ShintwStoresTheNextHint : Prop :=
  ∀ (s : State) (a b c d e : Nat),
    (∀ ptr w rest, s.readFe d a = .ok ptr → s.hintStream = w :: rest → w.length = s.cfg.wordSize →
      writeFault s.cfg e ((ptr + b) % s.cfg.p) = none → (s.space e).wf →
      ∃ t, exec (.shintw a b c d e) s = .next t ∧ s.StoresWord t e ((ptr + b) % s.cfg.p) w ∧
        t.hintStream = rest ∧ t.pc = (s.pc + s.cfg.instWidth) % s.cfg.p ∧ s.SameLaunch t ∧ t.inputs = s.inputs ∧
        t.printLog = s.printLog ∧ t.verifiable = s.verifiable ∧ t.status = s.status ∧ t.report = s.report) ∧
    (∀ f, s.readFe d a = .error f → Raises (.shintw a b c d e) s f) ∧
    (∀ ptr, s.readFe d a = .ok ptr → s.hintStream = [] → Raises (.shintw a b c d e) s .hintEmpty) ∧
    (∀ ptr w rest f, s.readFe d a = .ok ptr → s.hintStream = w :: rest →
      writeFault s.cfg e ((ptr + b) % s.cfg.p) = some f → Raises (.shintw a b c d e) s f)

/-- PUBLISH (R109): a check of a composed value against the public value at a composed index; it writes nothing. That
it is a check, and its two faults, is the spec's decision D23. -/
def Obligations.PublishChecksAPublicValue : Prop :=
  ∀ (s : State) (a b c d e : Nat),
    (∀ idx val, s.readFe d a = .ok idx → s.readFe e b = .ok val →
      (s.cfg.numPublicValues ≤ idx → Raises (.publish a b c d e) s .publicIndex) ∧
      (idx < s.cfg.numPublicValues → ∀ v, s.pv[idx]? = some v →
        (v = val →
          exec (.publish a b c d e) s = .next { s with pc := (s.pc + s.cfg.instWidth) % s.cfg.p }) ∧
        (v ≠ val → Raises (.publish a b c d e) s .publicMismatch))) ∧
    (∀ f, s.readFe d a = .error f → Raises (.publish a b c d e) s f) ∧
    (∀ idx f, s.readFe d a = .ok idx → s.readFe e b = .error f → Raises (.publish a b c d e) s f)

/-- HINT_INPUT (R118): the next input replaces the hint stream, and is taken off the inputs. The operands
and NO_INPUT are the spec's decision D20. -/
def Obligations.HintInputTakesTheNextInput : Prop :=
  ∀ (s : State) (a b c d e : Nat),
    (∀ i rest, s.inputs = i :: rest →
      exec (.hintInput a b c d e) s =
        .next { s with hintStream := i, inputs := rest, pc := (s.pc + s.cfg.instWidth) % s.cfg.p }) ∧
    (s.inputs = [] → Raises (.hintInput a b c d e) s .noInput)

/-- HINT_BITS (R119): the hint stream becomes HINT_BITS_LEN words, word `i` the decomposition of bit `i` of the
composed value. Operand, number, order and form of the bits are the spec's decision D21. -/
def Obligations.HintBitsGivesTheBits : Prop :=
  ∀ (s : State) (a b c d e : Nat),
    (∀ v, s.readFe d a = .ok v →
      ∃ hints, exec (.hintBits a b c d e) s =
          .next { s with hintStream := hints, pc := (s.pc + s.cfg.instWidth) % s.cfg.p } ∧
        hints.length = s.cfg.hintBitsLen ∧
        ∀ i < s.cfg.hintBitsLen, hints[i]? = some (decompose s.cfg (if v.testBit i then 1 else 0))) ∧
    (∀ f, s.readFe d a = .error f → Raises (.hintBits a b c d e) s f)

/-- The bits of a value, when there are enough of them, determine it: least significant first (R119). -/
def Obligations.HintBitsDetermineTheValue : Prop :=
  ∀ v n : Nat, v < 2 ^ n → limbSum 1 ((List.range n).map (bitOf v)) = v

/-! ### Field arithmetic -/

/-- FADD, FSUB and FMUL (R131 to R133): the decomposition of the sum, difference or product in F of the two composed
source words is stored at `a` in `d`; the accesses fault in the order of the rules. -/
def Obligations.FieldAddSubMul : Prop :=
  ∀ (s : State) (a b c d e : Nat) (i : Instr) (op : Nat → Nat → Nat), 0 < s.cfg.p →
    (i = .fadd a b c d e ∧ op = fun x y => (x + y) % s.cfg.p) ∨
    (i = .fsub a b c d e ∧ op = fun x y => (x + (s.cfg.p - y)) % s.cfg.p) ∨
    (i = .fmul a b c d e ∧ op = fun x y => x * y % s.cfg.p) →
    (∀ x y, s.readFe d b = .ok x → s.readFe e c = .ok y → writeFault s.cfg d a = none → (s.space d).wf →
      ∃ t, exec i s = .next t ∧ s.StoresWord t d a (decompose s.cfg (op x y)) ∧
        t.pc = (s.pc + s.cfg.instWidth) % s.cfg.p ∧ s.SameBesides t) ∧
    (∀ f, s.readFe d b = .error f → Raises i s f) ∧
    (∀ x f, s.readFe d b = .ok x → s.readFe e c = .error f → Raises i s f) ∧
    (∀ x y f, s.readFe d b = .ok x → s.readFe e c = .ok y → writeFault s.cfg d a = some f → Raises i s f)

/-- FDIV (R134): when the divisor is not 0, the decomposition of the one element `q` with `q * y = x` is stored; division
by 0 raises DIV_ZERO, the spec's decision D24; the accesses fault in the order of the rule. -/
def Obligations.FdivDividesInTheField : Prop :=
  ∀ (s : State) (a b c d e : Nat), s.cfg.p.Prime →
    (∀ x y, s.readFe d b = .ok x → s.readFe e c = .ok y →
      (y ≠ 0 → writeFault s.cfg d a = none → (s.space d).wf →
        ∃ q t, exec (.fdiv a b c d e) s = .next t ∧ q < s.cfg.p ∧ q * y % s.cfg.p = x ∧
          s.StoresWord t d a (decompose s.cfg q) ∧ t.pc = (s.pc + s.cfg.instWidth) % s.cfg.p ∧ s.SameBesides t) ∧
      (y = 0 → Raises (.fdiv a b c d e) s .divZero) ∧
      (∀ f, y ≠ 0 → writeFault s.cfg d a = some f → Raises (.fdiv a b c d e) s f)) ∧
    (∀ f, s.readFe d b = .error f → Raises (.fdiv a b c d e) s f) ∧
    (∀ x f, s.readFe d b = .ok x → s.readFe e c = .error f → Raises (.fdiv a b c d e) s f)

/-- The laws of division (R134, R135): `inv(y) = y^(p-2) mod p` is the one inverse of a nonzero `y`, and `x / y` is the
one element whose product with `y` is `x`. -/
def Obligations.InverseIsTheOnlyInverse : Prop :=
  ∀ p x y : Nat, p.Prime → x < p → 0 < y → y < p →
    feInv p y = y ^ (p - 2) % p ∧ feMul p y (feInv p y) = 1 ∧
    feMul p (feMul p x (feInv p y)) y = x ∧ ∀ q < p, feMul p q y = x → q = feMul p x (feInv p y)

/-! ### Extension field arithmetic -/

/-- FE4ADD and FE4SUB (R141, R142): lane by lane, each result in F; all source words are read before any is written; the
accesses fault in the order of the rules. -/
def Obligations.ExtensionAddSub : Prop :=
  ∀ (s : State) (a b c d e : Nat) (i : Instr) (op : Nat → Nat → Nat), 0 < s.cfg.p →
    (i = .fe4add a b c d e ∧ op = fun x y => (x + y) % s.cfg.p) ∨
    (i = .fe4sub a b c d e ∧ op = fun x y => (x + (s.cfg.p - y)) % s.cfg.p) →
    (∀ x y : Ext, s.ReadsFes d b x.toList → s.ReadsFes e c y.toList →
      (Writable s.cfg d a 4 → (s.space d).wf →
        ∃ t, exec i s = .next t ∧
          s.StoresWords t d a ([op x.c0 y.c0, op x.c1 y.c1, op x.c2 y.c2, op x.c3 y.c3].map (decompose s.cfg)) ∧
          t.pc = (s.pc + s.cfg.instWidth) % s.cfg.p ∧ s.SameBesides t) ∧
      (∀ f, WriteFaults s.cfg d a 4 f → Raises i s f)) ∧
    (∀ f, s.ReadFaults d b 4 f → Raises i s f) ∧
    (∀ (x : Ext) f, s.ReadsFes d b x.toList → s.ReadFaults e c 4 f → Raises i s f)

/-- BBE4MUL (R143): the four coefficients of the product reduced by `x^4 = 11`, as the rule gives them in F, are stored;
the accesses fault in the order of the rule. That the formulas compute over every `p`, BabyBear or not, is taken from R146
(log entry 31). -/
def Obligations.ExtensionMultiply : Prop :=
  ∀ (s : State) (a b c d e : Nat), 0 < s.cfg.p →
    (∀ x y : Ext, s.ReadsFes d b x.toList → s.ReadsFes e c y.toList →
      (Writable s.cfg d a 4 → (s.space d).wf →
        ∃ (r : Ext) (t : State), exec (.bbe4mul a b c d e) s = .next t ∧
          (r.c0 < s.cfg.p ∧ r.c1 < s.cfg.p ∧ r.c2 < s.cfg.p ∧ r.c3 < s.cfg.p) ∧
          (r.c0 : ZMod s.cfg.p) = x.c0 * y.c0 + 11 * (x.c1 * y.c3 + x.c2 * y.c2 + x.c3 * y.c1) ∧
          (r.c1 : ZMod s.cfg.p) = x.c0 * y.c1 + x.c1 * y.c0 + 11 * (x.c2 * y.c3 + x.c3 * y.c2) ∧
          (r.c2 : ZMod s.cfg.p) = x.c0 * y.c2 + x.c1 * y.c1 + x.c2 * y.c0 + 11 * x.c3 * y.c3 ∧
          (r.c3 : ZMod s.cfg.p) = x.c0 * y.c3 + x.c1 * y.c2 + x.c2 * y.c1 + x.c3 * y.c0 ∧
          s.StoresWords t d a (r.toList.map (decompose s.cfg)) ∧
          t.pc = (s.pc + s.cfg.instWidth) % s.cfg.p ∧ s.SameBesides t) ∧
      (∀ f, WriteFaults s.cfg d a 4 f → Raises (.bbe4mul a b c d e) s f)) ∧
    (∀ f, s.ReadFaults d b 4 f → Raises (.bbe4mul a b c d e) s f) ∧
    (∀ (x : Ext) f, s.ReadsFes d b x.toList → s.ReadFaults e c 4 f → Raises (.bbe4mul a b c d e) s f)

/-- BBE4INV (R144) over the BabyBear field: for every nonzero element the one inverse in the extension is stored; zero
raises INV_ZERO, the spec's decision D24; the accesses fault in the order of the rule. That BabyBear has this order is
presumed (log entry 2). -/
def Obligations.ExtensionInvert : Prop :=
  ∀ (s : State) (a b c d e : Nat), s.cfg.p = babyBear →
    (∀ u : Ext, s.ReadsFes d b u.toList →
      (u ≠ ⟨0, 0, 0, 0⟩ → Writable s.cfg d a 4 → (s.space d).wf →
        ∃ (r : Ext) (t : State), exec (.bbe4inv a b c d e) s = .next t ∧
          (r.c0 < s.cfg.p ∧ r.c1 < s.cfg.p ∧ r.c2 < s.cfg.p ∧ r.c3 < s.cfg.p) ∧
          extMul s.cfg.p u r = ⟨1, 0, 0, 0⟩ ∧
          s.StoresWords t d a (r.toList.map (decompose s.cfg)) ∧
          t.pc = (s.pc + s.cfg.instWidth) % s.cfg.p ∧ s.SameBesides t) ∧
      (u = ⟨0, 0, 0, 0⟩ → Raises (.bbe4inv a b c d e) s .invZero) ∧
      (∀ f, u ≠ ⟨0, 0, 0, 0⟩ → WriteFaults s.cfg d a 4 f → Raises (.bbe4inv a b c d e) s f)) ∧
    (∀ f, s.ReadFaults d b 4 f → Raises (.bbe4inv a b c d e) s f)

/-- Every nonzero element of the extension has exactly one inverse (R144, R146): over BabyBear `s = 0` only for zero, and
the source's derivation gives the one inverse of every other element. That BabyBear has this order is presumed (log entry 2). -/
def Obligations.ExtensionInverseIsUnique : Prop :=
  ∀ u : Ext, u.c0 < babyBear → u.c1 < babyBear → u.c2 < babyBear → u.c3 < babyBear →
    (extS babyBear u = 0 ↔ u = ⟨0, 0, 0, 0⟩) ∧ (extInv babyBear u = none ↔ u = ⟨0, 0, 0, 0⟩) ∧
    ∀ r, extInv babyBear u = some r → extMul babyBear u r = ⟨1, 0, 0, 0⟩ ∧
      ∀ r' : Ext, r'.c0 < babyBear → r'.c1 < babyBear → r'.c2 < babyBear → r'.c3 < babyBear →
        extMul babyBear u r' = ⟨1, 0, 0, 0⟩ → r' = r

/-- The product of the extension is commutative and associative, 1 is its identity, 0 gives 0, and `x * x^3 = 11`
(R143). -/
def Obligations.ExtensionProductLaws : Prop :=
  ∀ (p : Nat) (x y z : Ext), 1 < p → x.c0 < p → x.c1 < p → x.c2 < p → x.c3 < p →
    extMul p x y = extMul p y x ∧ extMul p (extMul p x y) z = extMul p x (extMul p y z) ∧
    extMul p x ⟨1, 0, 0, 0⟩ = x ∧ extMul p x ⟨0, 0, 0, 0⟩ = ⟨0, 0, 0, 0⟩ ∧
    extMul p ⟨0, 1, 0, 0⟩ ⟨0, 0, 0, 1⟩ = ⟨11 % p, 0, 0, 0⟩

/-! ### Hash precompiles -/

/-- COMPRESS_POSEIDON2 (R152): the first 8 elements of the permuted 16 input elements are stored in `e` at the pointer
in the cell `a`, and nothing else is changed; the accesses fault in the order of the rule. The permutation
is uninterpreted (log entry 9, the spec's decision D27). -/
def Obligations.CompressStoresHalfTheState : Prop :=
  ∀ (s : State) (a b c d e : Nat) (i : Instr), i = .compressPoseidon2 a b c d e →
    (∀ qa qb qc, s.readFe d a = .ok qa → s.readFe d b = .ok qb → s.readFe d c = .ok qc →
      (∀ left right, left.length = 8 → right.length = 8 → s.ReadsFes e qb left → s.ReadsFes e qc right →
        (Writable s.cfg e qa 8 → (s.space e).wf →
          ∃ t, exec i s = .next t ∧
            s.StoresWords t e qa (((poseidon2Perm s.cfg.p (left ++ right)).take 8).map (decompose s.cfg)) ∧
            t.pc = (s.pc + s.cfg.instWidth) % s.cfg.p ∧ s.SameBesides t) ∧
        (∀ f, WriteFaults s.cfg e qa 8 f → Raises i s f)) ∧
      (∀ f, s.ReadFaults e qb 8 f → Raises i s f) ∧
      (∀ left f, left.length = 8 → s.ReadsFes e qb left → s.ReadFaults e qc 8 f → Raises i s f)) ∧
    (∀ f, s.readFe d a = .error f → Raises i s f) ∧
    (∀ qa f, s.readFe d a = .ok qa → s.readFe d b = .error f → Raises i s f) ∧
    (∀ qa qb f, s.readFe d a = .ok qa → s.readFe d b = .ok qb → s.readFe d c = .error f → Raises i s f)

/-- PERM_POSEIDON2 (R153): the 16 elements of the permuted input are stored in `e` at the pointer in the cell `a`, and
nothing else is changed; a nonzero offset raises OFFSET_UNSUPPORTED, the spec's decision D25; the accesses fault in the order
of the rule. The permutation is uninterpreted (log entry 9). -/
def Obligations.PermuteStoresTheState : Prop :=
  ∀ (s : State) (a b c d e : Nat) (i : Instr), i = .permPoseidon2 a b c d e →
    (b ≠ 0 → Raises i s .offsetUnsupported) ∧
    (b = 0 →
      (∀ qa qc, s.readFe d a = .ok qa → s.readFe d c = .ok qc →
        (∀ st, st.length = 16 → s.ReadsFes e qc st →
          (Writable s.cfg e qa 16 → (s.space e).wf →
            ∃ t, exec i s = .next t ∧
              s.StoresWords t e qa ((poseidon2Perm s.cfg.p st).map (decompose s.cfg)) ∧
              t.pc = (s.pc + s.cfg.instWidth) % s.cfg.p ∧ s.SameBesides t) ∧
          (∀ f, WriteFaults s.cfg e qa 16 f → Raises i s f)) ∧
        (∀ f, s.ReadFaults e qc 16 f → Raises i s f)) ∧
      (∀ f, s.readFe d a = .error f → Raises i s f) ∧
      (∀ qa f, s.readFe d a = .ok qa → s.readFe d c = .error f → Raises i s f))

/-- COMPRESS_POSEIDON2 of two adjacent halves equals the first 8 outputs of PERM_POSEIDON2 of the 16 (R153), where no two
of the output words share an address. -/
def Obligations.CompressIsTheFirstHalfOfPermute : Prop :=
  ∀ (s t u : State) (a b c d e : Nat) (qa qb : Nat), 1 < s.cfg.p → 16 * s.cfg.wordSize ≤ s.cfg.p →
    (s.space e).wf → s.readFe d a = .ok qa → s.readFe d b = .ok qb → s.readFe d c = .ok (wordAddr s.cfg qb 8) →
    exec (.compressPoseidon2 a b c d e) s = .next t → exec (.permPoseidon2 a 0 b d e) s = .next u →
    t.status = .running → u.status = .running →
    ∀ k < 8, ∀ j < s.cfg.wordSize,
      t.peek e (wordAddr s.cfg qa k + j) = u.peek e (wordAddr s.cfg qa k + j)

/-- PERM_KECCAK (R154): KECCAK_WIDTH values of 16 bits are read from the pointer in the cell `c`, permuted, and stored from
the pointer in the cell `a`; each fault of the rule, in its order, the spec's decisions D25 and D26. The permutation is
uninterpreted and its results are reduced into F (log entry 10). The space `e` must be
one that can be written even when KECCAK_WIDTH is 0 (R82, R155); that the check stands after the reads then, and covers
every `e` but 1 and 2, is the model's reading (log entry 36). -/
def Obligations.KeccakStoresTheState : Prop :=
  ∀ (s : State) (a b c d e : Nat) (i : Instr), i = .permKeccak a b c d e →
    (s.cfg.wordSize ≠ 1 → Raises i s .keccakWordSize) ∧
    (s.cfg.wordSize = 1 → b ≠ 0 → Raises i s .offsetUnsupported) ∧
    (s.cfg.wordSize = 1 → b = 0 →
      (∀ qa qc, s.readWord d a = .ok [qa] → s.readWord d c = .ok [qc] →
        (∀ st : List Nat, st.length = s.cfg.keccakWidth →
          (∀ k v, st[k]? = some v → v < 2 ^ 16 ∧ s.readWord e ((qc + k) % s.cfg.p) = .ok [v]) →
          (e = 0 → Raises i s .writeImm) ∧ (e = 3 → Raises i s .asReserved) ∧ (4 ≤ e → Raises i s .asInvalid) ∧
          (e = 1 ∨ e = 2 → Writable s.cfg e qa s.cfg.keccakWidth → (s.space e).wf →
            ∃ t, exec i s = .next t ∧
              s.StoresWords t e qa ((keccakF s.cfg.keccakWidth st).map fun v => [v % s.cfg.p]) ∧
              t.pc = (s.pc + s.cfg.instWidth) % s.cfg.p ∧ s.SameBesides t) ∧
          (∀ f, WriteFaults s.cfg e qa s.cfg.keccakWidth f → Raises i s f)) ∧
        (∀ k < s.cfg.keccakWidth,
          (∀ j < k, ∃ v < 2 ^ 16, s.readWord e ((qc + j) % s.cfg.p) = .ok [v]) →
          (∀ f, s.readWord e ((qc + k) % s.cfg.p) = .error f → Raises i s f) ∧
          (∀ v, s.readWord e ((qc + k) % s.cfg.p) = .ok [v] → 2 ^ 16 ≤ v → Raises i s .keccakRange))) ∧
      (∀ f, s.readWord d a = .error f → Raises i s f) ∧
      (∀ qa f, s.readWord d a = .ok [qa] → s.readWord d c = .error f → Raises i s f))

/-! ### Excluded instructions and idioms -/

/-- FAIL (R161): the status becomes Failed, and nothing else changes but the model's own `report` (log entry 6). -/
def Obligations.FailFailsTheRun : Prop :=
  ∀ (s : State) (a b c d e : Nat),
    exec (.fail a b c d e) s = .next { s with status := .failed, report := some .fail }

/-- PRINTF (R162): the composed value is appended to the print log and the flag `verifiable` is cleared. That the
log holds elements of F, and the flag (R33), are the spec's decision D29 (log entry 23). -/
def Obligations.PrintfPrintsAndSpoils : Prop :=
  ∀ (s : State) (a b c d e : Nat),
    (∀ v, s.readFe d a = .ok v →
      exec (.printf a b c d e) s =
        .next { s with printLog := s.printLog ++ [v], verifiable := false,
                       pc := (s.pc + s.cfg.instWidth) % s.cfg.p }) ∧
    (∀ f, s.readFe d a = .error f → Raises (.printf a b c d e) s f)

/-- The idioms of R86: STOREW with `d = 0` loads a constant into a register, BEQ of two zeros always jumps, BNE of two
zeros does nothing, FADD with the immediate 0 copies the composed value of a register, FADD of a register that holds 0
loads a constant, and JAL with a scratch register jumps. Each for its operand form alone. -/
def Obligations.IdiomsDoWhatTheyAreFor : Prop :=
  ∀ (s : State), 1 ≤ s.cfg.wordSize → conversionAdmitted s.cfg = true → s.regs.wf → 1 < s.cfg.p →
    (∀ k r, k < s.cfg.p → r < s.cfg.p → writeFault s.cfg 1 r = none →
      ∃ t, exec (.storew k r 0 0 1) s = .next t ∧ s.StoresWord t 1 r (decompose s.cfg k) ∧ t.readFe 1 r = .ok k ∧
        t.pc = (s.pc + s.cfg.instWidth) % s.cfg.p ∧ s.SameBesides t) ∧
    (∀ offset, exec (.beq 0 0 offset 0 0) s = .next { s with pc := (s.pc + offset) % s.cfg.p }) ∧
    exec (.bne 0 0 0 0 0) s = .next { s with pc := (s.pc + s.cfg.instWidth) % s.cfg.p } ∧
    (∀ r r' v, s.readFe 1 r' = .ok v → writeFault s.cfg 1 r = none →
      ∃ t, exec (.fadd r r' 0 1 0) s = .next t ∧ s.StoresWord t 1 r (decompose s.cfg v) ∧ t.readFe 1 r = .ok v ∧
        t.pc = (s.pc + s.cfg.instWidth) % s.cfg.p ∧ s.SameBesides t) ∧
    (∀ r r' k, k < s.cfg.p → s.readFe 1 r' = .ok 0 → writeFault s.cfg 1 r = none →
      ∃ t, exec (.fadd r r' k 1 0) s = .next t ∧ s.StoresWord t 1 r (decompose s.cfg k) ∧ t.readFe 1 r = .ok k ∧
        t.pc = (s.pc + s.cfg.instWidth) % s.cfg.p ∧ s.SameBesides t) ∧
    (∀ r offset, writeFault s.cfg 1 r = none →
      ∃ t, exec (.jal r offset 0 1 0) s = .next t ∧
        s.StoresWord t 1 r (decompose s.cfg ((s.pc + s.cfg.instWidth) % s.cfg.p)) ∧
        t.pc = (s.pc + offset) % s.cfg.p ∧ s.SameBesides t)
end

