-- ==== Sys2Proof/Laws/Field.lean ====
section
/-! SUPPORT. What the operations of F are in `ZMod p`, and that their results are elements of F. -/

namespace Sys2Proof.Machine

variable {p : Nat}

theorem toFe_lt (hp : 0 < p) (z : Int) : toFe p z < p := by
  have h1 := Int.emod_nonneg z (b := (p : Int)) (by omega)
  have h2 := Int.emod_lt_of_pos z (b := (p : Int)) (by omega)
  unfold toFe; omega

theorem feAdd_lt (hp : 0 < p) (x y : Nat) : feAdd p x y < p := Nat.mod_lt _ hp

theorem feSub_lt (hp : 0 < p) (x y : Nat) : feSub p x y < p := toFe_lt hp _

theorem feMul_lt (hp : 0 < p) (x y : Nat) : feMul p x y < p := Nat.mod_lt _ hp

@[simp] theorem toFe_cast (hp : 0 < p) (z : Int) : ((toFe p z : ℕ) : ZMod p) = (z : ZMod p) := by
  have h := Int.emod_nonneg z (b := (p : Int)) (by omega)
  have : ((toFe p z : ℕ) : ℤ) = z % p := by unfold toFe; omega
  rw [← Int.cast_natCast, this, ZMod.intCast_mod]

@[simp] theorem feAdd_cast (x y : Nat) : ((feAdd p x y : ℕ) : ZMod p) = x + y := by simp [feAdd]

@[simp] theorem feMul_cast (x y : Nat) : ((feMul p x y : ℕ) : ZMod p) = x * y := by simp [feMul]

@[simp] theorem feSub_cast (hp : 0 < p) (x y : Nat) : ((feSub p x y : ℕ) : ZMod p) = x - y := by
  simp [feSub, toFe_cast hp]

/-- Two elements of F are equal when they are equal in `ZMod p`. -/
theorem fe_ext {x y : Nat} (hx : x < p) (hy : y < p) (h : (x : ZMod p) = y) : x = y := by
  have := (ZMod.natCast_eq_natCast_iff' x y p).1 h
  rwa [Nat.mod_eq_of_lt hx, Nat.mod_eq_of_lt hy] at this

theorem fePowDigits_eq (n : Nat) : ∀ (b : Nat) (k : Nat), k < 2 ^ n → fePowDigits p n b k = b ^ k % p := by
  induction n with
  | zero => intro b k hk; obtain rfl : k = 0 := by simpa using hk
            simp [fePowDigits]
  | succ n ih =>
    intro b k hk
    have hk' : k / 2 < 2 ^ n := by rw [pow_succ] at hk; omega
    have hsq : (b * b % p) ^ (k / 2) % p = (b ^ (2 * (k / 2))) % p := by
      rw [← Nat.pow_mod, pow_mul, pow_two]
    simp only [fePowDigits, ih _ _ hk']
    split
    · next h => subst h; simp
    · split
      · next h =>
        rw [hsq, Nat.mul_mod_mod, ← pow_succ', show 2 * (k / 2) + 1 = k by omega]
      · next h => rw [hsq, show 2 * (k / 2) = k by omega]

/-- `fePow` is exponentiation in F. -/
theorem fePow_eq (b : Nat) (k : Nat) : fePow p b k = b ^ k % p :=
  fePowDigits_eq _ b k Nat.lt_log2_self

theorem feInv_eq (y : Nat) : feInv p y = y ^ (p - 2) % p := fePow_eq y _

theorem feInv_lt (hp : 0 < p) (y : Nat) : feInv p y < p := by rw [feInv_eq]; exact Nat.mod_lt _ hp

/-- The reference `p` is prime: 31 is a primitive root, and `p - 1 = 2^27 * 3 * 5` (Lucas). -/
theorem babyBear_prime : babyBear.Prime := by
  have cast_pow : ∀ k r : Nat, fePow babyBear 31 k = r → ((31 : ZMod babyBear)) ^ k = (r : ZMod babyBear) := by
    intro k r h
    rw [← h, fePow_eq, ZMod.natCast_mod]; push_cast; rfl
  have ne_one : ∀ r : Nat, r < babyBear → r ≠ 1 → ((r : ZMod babyBear)) ≠ 1 := by
    intro r hr h1 h
    exact h1 (fe_ext hr (by decide) (by simpa using h))
  refine lucas_primality babyBear 31 ((cast_pow _ 1 (by decide +kernel)).trans (by simp)) ?_
  intro q hq hd
  have hfac : babyBear - 1 = 2 ^ 27 * 3 * 5 := by decide
  rw [hfac] at hd
  have hq' : q = 2 ∨ q = 3 ∨ q = 5 := by
    rcases (Nat.Prime.dvd_mul hq).1 hd with h | h
    · rcases (Nat.Prime.dvd_mul hq).1 h with h | h
      · exact .inl ((Nat.prime_dvd_prime_iff_eq hq Nat.prime_two).1 (hq.dvd_of_dvd_pow h))
      · exact .inr (.inl ((Nat.prime_dvd_prime_iff_eq hq Nat.prime_three).1 h))
    · exact .inr (.inr ((Nat.prime_dvd_prime_iff_eq hq Nat.prime_five).1 h))
  rcases hq' with rfl | rfl | rfl
  · rw [cast_pow _ (fePow babyBear 31 ((babyBear - 1) / 2)) rfl]
    exact ne_one _ (by decide +kernel) (by decide +kernel)
  · rw [cast_pow _ (fePow babyBear 31 ((babyBear - 1) / 3)) rfl]
    exact ne_one _ (by decide +kernel) (by decide +kernel)
  · rw [cast_pow _ (fePow babyBear 31 ((babyBear - 1) / 5)) rfl]
    exact ne_one _ (by decide +kernel) (by decide +kernel)

end Sys2Proof.Machine
end

