-- ==== Sys2Proof/Laws/Memory.lean ====
section
/-! SUPPORT. The laws of an address space: read after write, the frame of a write, and the canonical form, which
every operation keeps. -/

namespace Sys2Proof.Machine

theorem lookupCell_eq_none_of_not_mem {a : Nat} :
    ∀ {l : List (Nat × Nat)}, a ∉ l.map Prod.fst → lookupCell a l = none
  | [], _ => rfl
  | (x, w) :: r, h => by
    simp only [List.map_cons, List.mem_cons, not_or] at h
    simp only [lookupCell, if_neg (Ne.symm h.1)]
    exact lookupCell_eq_none_of_not_mem h.2

theorem lookupCell_mem {a : Nat} {v : Nat} :
    ∀ {l : List (Nat × Nat)}, lookupCell a l = some v → (a, v) ∈ l
  | (x, w) :: r, h => by
    simp only [lookupCell] at h
    split at h
    · next hx => cases h; subst hx; exact List.mem_cons_self
    · exact List.mem_cons_of_mem _ (lookupCell_mem h)

@[simp] theorem lookupCell_insertCell_same (a : Nat) (v : Nat) :
    ∀ l : List (Nat × Nat), lookupCell a (insertCell a v l) = some v
  | [] => by simp [insertCell, lookupCell]
  | (x, w) :: r => by
    simp only [insertCell]
    split
    · simp [lookupCell]
    · split
      · simp [lookupCell]
      · next h => simp [lookupCell, Ne.symm h, lookupCell_insertCell_same a v r]

theorem lookupCell_insertCell_other {a b : Nat} (hne : b ≠ a) (v : Nat) :
    ∀ l : List (Nat × Nat), lookupCell b (insertCell a v l) = lookupCell b l
  | [] => by simp [insertCell, lookupCell, Ne.symm hne]
  | (x, w) :: r => by
    simp only [insertCell]
    split
    · simp [lookupCell, Ne.symm hne]
    · split
      · next h => subst h; simp [lookupCell, Ne.symm hne]
      · simp only [lookupCell, lookupCell_insertCell_other hne v r]

theorem lookupCell_eraseCell_other {a b : Nat} (hne : b ≠ a) :
    ∀ l : List (Nat × Nat), lookupCell b (eraseCell a l) = lookupCell b l
  | [] => rfl
  | (x, w) :: r => by
    simp only [eraseCell]
    split
    · next h => subst h; simp [lookupCell, Ne.symm hne]
    · simp only [lookupCell, lookupCell_eraseCell_other hne r]

theorem lookupCell_eraseCell_same (a : Nat) :
    ∀ {l : List (Nat × Nat)}, (l.map Prod.fst).Pairwise (· < ·) → lookupCell a (eraseCell a l) = none
  | [], _ => rfl
  | (x, w) :: r, h => by
    simp only [List.map_cons, List.pairwise_cons] at h
    simp only [eraseCell]
    split
    · next hx =>
      subst hx
      exact lookupCell_eq_none_of_not_mem fun hm => absurd (h.1 _ hm) (lt_irrefl _)
    · next hx => simp only [lookupCell, if_neg hx, lookupCell_eraseCell_same a h.2]

theorem mem_insertCell {a : Nat} {v : Nat} {c : Nat × Nat} :
    ∀ {l : List (Nat × Nat)}, c ∈ insertCell a v l → c = (a, v) ∨ c ∈ l
  | [], h => by simpa [insertCell] using h
  | (x, w) :: r, h => by
    simp only [insertCell] at h
    split at h
    · simpa using h
    · split at h
      · rcases List.mem_cons.1 h with rfl | h
        · exact .inl rfl
        · exact .inr (List.mem_cons_of_mem _ h)
      · rcases List.mem_cons.1 h with rfl | h
        · exact .inr List.mem_cons_self
        · exact (mem_insertCell h).imp id (List.mem_cons_of_mem _)

theorem mem_eraseCell {a : Nat} {c : Nat × Nat} :
    ∀ {l : List (Nat × Nat)}, c ∈ eraseCell a l → c ∈ l
  | (x, w) :: r, h => by
    simp only [eraseCell] at h
    split at h
    · exact List.mem_cons_of_mem _ h
    · rcases List.mem_cons.1 h with rfl | h
      · exact List.mem_cons_self
      · exact List.mem_cons_of_mem _ (mem_eraseCell h)

theorem insertCell_rising (a : Nat) (v : Nat) :
    ∀ {l : List (Nat × Nat)}, (l.map Prod.fst).Pairwise (· < ·) →
      ((insertCell a v l).map Prod.fst).Pairwise (· < ·)
  | [], _ => by simp [insertCell]
  | (x, w) :: r, h => by
    have hr := h
    simp only [List.map_cons, List.pairwise_cons] at hr
    simp only [insertCell]
    split
    · next hlt =>
      simp only [List.map_cons, List.pairwise_cons, List.mem_cons]
      exact ⟨fun y hy => hy.elim (fun e => e ▸ hlt) fun hy => lt_trans hlt (hr.1 y hy), hr⟩
    · split
      · next he => subst he; simpa using hr
      · next hn hne =>
        simp only [List.map_cons, List.pairwise_cons]
        refine ⟨fun y hy => ?_, insertCell_rising a v hr.2⟩
        obtain ⟨c, hc, rfl⟩ := List.mem_map.1 hy
        rcases mem_insertCell hc with rfl | hc
        · exact lt_of_le_of_ne (not_lt.1 hn) (Ne.symm hne)
        · exact hr.1 _ (List.mem_map_of_mem hc)

theorem eraseCell_rising (a : Nat) :
    ∀ {l : List (Nat × Nat)}, (l.map Prod.fst).Pairwise (· < ·) →
      ((eraseCell a l).map Prod.fst).Pairwise (· < ·)
  | [], _ => by simp [eraseCell]
  | (x, w) :: r, h => by
    simp only [List.map_cons, List.pairwise_cons] at h
    simp only [eraseCell]
    split
    · exact h.2
    · simp only [List.map_cons, List.pairwise_cons]
      refine ⟨fun y hy => ?_, eraseCell_rising a h.2⟩
      obtain ⟨c, hc, rfl⟩ := List.mem_map.1 hy
      exact h.1 _ (List.mem_map_of_mem (mem_eraseCell hc))

/-- A background gives a value only to the addresses of its ranges, and only a value of theirs. -/
theorem fillAt_eq_some {a v : Nat} : ∀ {l : List Fill}, fillAt a l = some v → ∃ f ∈ l, f.lo ≤ a ∧ a < f.hi ∧ f.value = v
  | f :: r, h => by
    simp only [fillAt] at h
    split at h
    · next hf => exact ⟨f, List.mem_cons_self, hf.1, hf.2, Option.some.inj h⟩
    · obtain ⟨g, hg, h⟩ := fillAt_eq_some h
      exact ⟨g, List.mem_cons_of_mem _ hg, h⟩

@[simp] theorem Memory.write_background (m : Memory) (a : Nat) (v : Nat) :
    (m.write a v).background = m.background := by
  unfold Memory.write; split <;> rfl

/-- A read after a write to the same address gives the value written. -/
theorem Memory.read_write_same {m : Memory} (h : m.wf) (a : Nat) (v : Nat) : (m.write a v).read a = some v := by
  by_cases hb : fillAt a m.background = some v
  · simp [Memory.write, Memory.read, hb, lookupCell_eraseCell_same a h.1]
  · simp [Memory.write, Memory.read, hb]

/-- A write leaves every other address alone. -/
theorem Memory.read_write_other (m : Memory) {a b : Nat} (hne : b ≠ a) (v : Nat) :
    (m.write a v).read b = m.read b := by
  by_cases hb : fillAt a m.background = some v
  · simp [Memory.write, Memory.read, hb, lookupCell_eraseCell_other hne]
  · simp [Memory.write, Memory.read, hb, lookupCell_insertCell_other hne]

/-- A write keeps the canonical form. -/
theorem Memory.write_wf {m : Memory} (h : m.wf) (a : Nat) (v : Nat) : (m.write a v).wf := by
  unfold Memory.write
  split
  · exact ⟨eraseCell_rising a h.1, fun c hc => h.2 c (mem_eraseCell hc)⟩
  · next hb =>
    refine ⟨insertCell_rising a v h.1, fun c hc => ?_⟩
    rcases mem_insertCell hc with rfl | hc
    · exact hb
    · exact h.2 c hc

/-- Every cell listed after a write is the one written or was listed before. -/
theorem Memory.mem_cells_write {m : Memory} {a : Nat} {v : Nat} {c : Nat × Nat} (h : c ∈ (m.write a v).cells) :
    c = (a, v) ∨ c ∈ m.cells := by
  unfold Memory.write at h
  split at h
  · exact .inr (mem_eraseCell h)
  · exact mem_insertCell h

@[simp] theorem Memory.writeRun_background (w : Word) :
    ∀ (m : Memory) (a : Nat), (m.writeRun a w).background = m.background := by
  induction w with
  | nil => intros; rfl
  | cons v w ih => intro m a; simp [Memory.writeRun, ih]

/-- A run of writes keeps the canonical form. -/
theorem Memory.writeRun_wf (w : Word) : ∀ {m : Memory} (_ : m.wf) (a : Nat), (m.writeRun a w).wf := by
  induction w with
  | nil => intro m h _; exact h
  | cons v w ih => intro m h a; exact ih (Memory.write_wf h a v) (a + 1)

/-- A run of writes leaves every address outside it alone. -/
theorem Memory.read_writeRun_outside (w : Word) :
    ∀ (m : Memory) (a : Nat) {b : Nat}, (b < a ∨ a + w.length ≤ b) → (m.writeRun a w).read b = m.read b := by
  induction w with
  | nil => intros; rfl
  | cons v w ih =>
    intro m a b h
    simp only [List.length_cons] at h
    simp only [Memory.writeRun]
    rw [ih _ _ (by omega), Memory.read_write_other _ (by omega)]

/-- A run of writes gives each of its addresses its element. -/
theorem Memory.read_writeRun_inside (w : Word) :
    ∀ {m : Memory} (_ : m.wf) (a : Nat) {j : Nat} (_ : j < w.length), (m.writeRun a w).read (a + j) = w[j]? := by
  induction w with
  | nil => intro m _ a j hj; simp at hj
  | cons v w ih =>
    intro m h a j hj
    simp only [Memory.writeRun]
    cases j with
    | zero =>
      rw [Memory.read_writeRun_outside _ _ _ (by omega)]
      simpa using Memory.read_write_same h a v
    | succ j =>
      have := ih (Memory.write_wf h a v) (a + 1) (j := j) (by simpa using hj)
      simpa [Nat.add_assoc, Nat.add_comm 1 j] using this

/-- Every cell listed after a run of writes was listed before or is in the run, with an element of the word. -/
theorem Memory.mem_cells_writeRun (w : Word) :
    ∀ {m : Memory} {a : Nat} {c : Nat × Nat}, c ∈ (m.writeRun a w).cells →
      (a ≤ c.1 ∧ c.1 < a + w.length ∧ c.2 ∈ w) ∨ c ∈ m.cells := by
  induction w with
  | nil => intro m a c h; exact .inr h
  | cons v w ih =>
    intro m a c h
    rcases ih h with ⟨h1, h2, h3⟩ | h
    · exact .inl ⟨by omega, by simp only [List.length_cons]; omega, List.mem_cons_of_mem _ h3⟩
    · rcases Memory.mem_cells_write h with rfl | h
      · exact .inl ⟨le_refl _, by simp, List.mem_cons_self⟩
      · exact .inr h

/-- The memories of the reset state are in canonical form. -/
theorem reset_memory_wf : State.reset.regs.wf ∧ State.reset.mem.wf := by decide

end Sys2Proof.Machine
end

