-- ==== Sys2Proof/Laws/Launch.lean ====
section
/-! SUPPORT. What the check of a launch map says: it has values only inside the domains. -/

namespace Sys2Proof.Machine

theorem covers_iff : ∀ {rs : List (Nat × Nat)} {lo hi : Nat},
    covers rs lo hi = true ↔ ∀ a, lo ≤ a → a < hi → ∃ r ∈ rs, r.1 ≤ a ∧ a < r.2
  | [], lo, hi => by
    simp only [covers, decide_eq_true_eq, List.not_mem_nil, false_and, exists_false]
    exact ⟨fun h a h1 h2 => by omega, fun h => by_contra fun hc => h lo le_rfl (by omega)⟩
  | r :: rs, lo, hi => by
    simp only [covers, Bool.or_eq_true, Bool.and_eq_true, decide_eq_true_eq, covers_iff, List.mem_cons,
      exists_eq_or_imp]
    constructor
    · rintro (h | ⟨h1, h2⟩) a ha hb
      · omega
      · rcases Nat.lt_or_ge a r.1 with hr | hr
        · exact .inr (h1 a ha (by omega))
        · rcases Nat.lt_or_ge a r.2 with hr' | hr'
          · exact .inl ⟨hr, hr'⟩
          · exact .inr (h2 a (by omega) hb)
    · exact fun h => .inr ⟨fun a ha hb => (h a ha (by omega)).resolve_left (by omega),
        fun a ha hb => (h a (by omega) hb).resolve_left (by omega)⟩

theorem domainCovers_iff {c : Config} {as lo hi : Nat} :
    domainCovers c as lo hi = true ↔ ∀ addr, lo ≤ addr → addr < hi → inDomain c as addr = true := by
  simp only [domainCovers, inDomain, Bool.and_eq_true, Bool.or_eq_true, decide_eq_true_eq, covers_iff, List.any_eq_true,
    List.mem_singleton, exists_eq_left, Nat.zero_le, true_and]
  by_cases h : as = 1 <;> simp [h, imp_and, forall_and]

/-- The check of a launch map is exact (R193 item 7). -/
theorem fitsSpace_iff {c : Config} {as : Nat} {m : Memory} : fitsSpace c as m = true ↔ FitsSpace c as m := by
  simp only [fitsSpace, FitsSpace, Bool.and_eq_true, decide_eq_true_eq, List.all_eq_true, domainCovers_iff, and_assoc]

/-- A space that fits gives values of F only, and only to addresses of its domain. -/
theorem FitsSpace.read {c : Config} {as : Nat} {m : Memory} (h : FitsSpace c as m) {addr v : Nat}
    (hr : m.read addr = some v) : inDomain c as addr = true ∧ v < c.p := by
  unfold Memory.read at hr
  cases hl : lookupCell addr m.cells with
  | some x =>
    simp only [hl, Option.some.injEq] at hr
    exact hr ▸ h.2.1 _ (lookupCell_mem hl)
  | none =>
    simp only [hl] at hr
    obtain ⟨f, hf, h1, h2, rfl⟩ := fillAt_eq_some hr
    exact ⟨(h.2.2 f hf).2 addr h1 h2, (h.2.2 f hf).1⟩

end Sys2Proof.Machine
end

