-- ==== Sys2Proof/Laws/State.lean ====
section
/-! SUPPORT. One lemma per field of `State` and per update of it, so that no proof unfolds a record update. -/

namespace Sys2Proof.Machine

variable (s : State)

section Raise

@[simp] theorem State.raise_cfg (n : FaultName) : (s.raise n).cfg = s.cfg := rfl
@[simp] theorem State.raise_program (n : FaultName) : (s.raise n).program = s.program := rfl
@[simp] theorem State.raise_pv (n : FaultName) : (s.raise n).pv = s.pv := rfl
@[simp] theorem State.raise_pc (n : FaultName) : (s.raise n).pc = s.pc := rfl
@[simp] theorem State.raise_regs (n : FaultName) : (s.raise n).regs = s.regs := rfl
@[simp] theorem State.raise_mem (n : FaultName) : (s.raise n).mem = s.mem := rfl
@[simp] theorem State.raise_hintStream (n : FaultName) : (s.raise n).hintStream = s.hintStream := rfl
@[simp] theorem State.raise_inputs (n : FaultName) : (s.raise n).inputs = s.inputs := rfl
@[simp] theorem State.raise_printLog (n : FaultName) : (s.raise n).printLog = s.printLog := rfl
@[simp] theorem State.raise_verifiable (n : FaultName) : (s.raise n).verifiable = s.verifiable := rfl
@[simp] theorem State.raise_status (n : FaultName) : (s.raise n).status = .failed := rfl
@[simp] theorem State.raise_report (n : FaultName) : (s.raise n).report = some n := rfl

end Raise

section Advance

@[simp] theorem State.advance_cfg : (s.advance).cfg = s.cfg := rfl
@[simp] theorem State.advance_program : (s.advance).program = s.program := rfl
@[simp] theorem State.advance_pv : (s.advance).pv = s.pv := rfl
@[simp] theorem State.advance_pc : (s.advance).pc = feAdd s.cfg.p s.pc s.cfg.instWidth := rfl
@[simp] theorem State.advance_regs : (s.advance).regs = s.regs := rfl
@[simp] theorem State.advance_mem : (s.advance).mem = s.mem := rfl
@[simp] theorem State.advance_hintStream : (s.advance).hintStream = s.hintStream := rfl
@[simp] theorem State.advance_inputs : (s.advance).inputs = s.inputs := rfl
@[simp] theorem State.advance_printLog : (s.advance).printLog = s.printLog := rfl
@[simp] theorem State.advance_verifiable : (s.advance).verifiable = s.verifiable := rfl
@[simp] theorem State.advance_status : (s.advance).status = s.status := rfl
@[simp] theorem State.advance_report : (s.advance).report = s.report := rfl

end Advance

section JumpBy

@[simp] theorem State.jumpBy_cfg (offset : Nat) : (s.jumpBy offset).cfg = s.cfg := rfl
@[simp] theorem State.jumpBy_program (offset : Nat) : (s.jumpBy offset).program = s.program := rfl
@[simp] theorem State.jumpBy_pv (offset : Nat) : (s.jumpBy offset).pv = s.pv := rfl
@[simp] theorem State.jumpBy_pc (offset : Nat) : (s.jumpBy offset).pc = feAdd s.cfg.p s.pc offset := rfl
@[simp] theorem State.jumpBy_regs (offset : Nat) : (s.jumpBy offset).regs = s.regs := rfl
@[simp] theorem State.jumpBy_mem (offset : Nat) : (s.jumpBy offset).mem = s.mem := rfl
@[simp] theorem State.jumpBy_hintStream (offset : Nat) : (s.jumpBy offset).hintStream = s.hintStream := rfl
@[simp] theorem State.jumpBy_inputs (offset : Nat) : (s.jumpBy offset).inputs = s.inputs := rfl
@[simp] theorem State.jumpBy_printLog (offset : Nat) : (s.jumpBy offset).printLog = s.printLog := rfl
@[simp] theorem State.jumpBy_verifiable (offset : Nat) : (s.jumpBy offset).verifiable = s.verifiable := rfl
@[simp] theorem State.jumpBy_status (offset : Nat) : (s.jumpBy offset).status = s.status := rfl
@[simp] theorem State.jumpBy_report (offset : Nat) : (s.jumpBy offset).report = s.report := rfl

end JumpBy

section SetSpace

variable (as : Nat) (m : Memory)

@[simp] theorem State.setSpace_cfg : (s.setSpace as m).cfg = s.cfg := by unfold State.setSpace; split <;> rfl
@[simp] theorem State.setSpace_program : (s.setSpace as m).program = s.program := by unfold State.setSpace; split <;> rfl
@[simp] theorem State.setSpace_pv : (s.setSpace as m).pv = s.pv := by unfold State.setSpace; split <;> rfl
@[simp] theorem State.setSpace_pc : (s.setSpace as m).pc = s.pc := by unfold State.setSpace; split <;> rfl
@[simp] theorem State.setSpace_hintStream : (s.setSpace as m).hintStream = s.hintStream := by unfold State.setSpace; split <;> rfl
@[simp] theorem State.setSpace_inputs : (s.setSpace as m).inputs = s.inputs := by unfold State.setSpace; split <;> rfl
@[simp] theorem State.setSpace_printLog : (s.setSpace as m).printLog = s.printLog := by unfold State.setSpace; split <;> rfl
@[simp] theorem State.setSpace_verifiable : (s.setSpace as m).verifiable = s.verifiable := by unfold State.setSpace; split <;> rfl
@[simp] theorem State.setSpace_status : (s.setSpace as m).status = s.status := by unfold State.setSpace; split <;> rfl
@[simp] theorem State.setSpace_report : (s.setSpace as m).report = s.report := by unfold State.setSpace; split <;> rfl

theorem State.setSpace_regs : (s.setSpace as m).regs = if as = 1 then m else s.regs := by
  unfold State.setSpace; split <;> rfl

theorem State.setSpace_mem : (s.setSpace as m).mem = if as = 1 then s.mem else m := by
  unfold State.setSpace; split <;> rfl

@[simp] theorem State.setSpace_space_same : (s.setSpace as m).space as = m := by
  unfold State.setSpace State.space; split <;> rfl

/-- Writing one address space leaves the other one alone. -/
theorem State.setSpace_space_other {as as' : Nat} (h : as ∈ [1, 2]) (h' : as' ∈ [1, 2]) (hne : as ≠ as') :
    (s.setSpace as m).space as' = s.space as' := by
  simp only [List.mem_cons, List.not_mem_nil, or_false] at h h'
  rcases h with rfl | rfl <;> rcases h' with rfl | rfl <;> first | exact absurd rfl hne | rfl

end SetSpace

section PutWord

variable (as ptr : Nat) (w : Word)

@[simp] theorem State.putWord_cfg : (s.putWord as ptr w).cfg = s.cfg := by simp [State.putWord]
@[simp] theorem State.putWord_program : (s.putWord as ptr w).program = s.program := by simp [State.putWord]
@[simp] theorem State.putWord_pv : (s.putWord as ptr w).pv = s.pv := by simp [State.putWord]
@[simp] theorem State.putWord_pc : (s.putWord as ptr w).pc = s.pc := by simp [State.putWord]
@[simp] theorem State.putWord_hintStream : (s.putWord as ptr w).hintStream = s.hintStream := by simp [State.putWord]
@[simp] theorem State.putWord_inputs : (s.putWord as ptr w).inputs = s.inputs := by simp [State.putWord]
@[simp] theorem State.putWord_printLog : (s.putWord as ptr w).printLog = s.printLog := by simp [State.putWord]
@[simp] theorem State.putWord_verifiable : (s.putWord as ptr w).verifiable = s.verifiable := by simp [State.putWord]
@[simp] theorem State.putWord_status : (s.putWord as ptr w).status = s.status := by simp [State.putWord]
@[simp] theorem State.putWord_report : (s.putWord as ptr w).report = s.report := by simp [State.putWord]

end PutWord

@[simp] theorem State.space_advance (as : Nat) : s.advance.space as = s.space as := rfl
@[simp] theorem State.space_jumpBy (offset as : Nat) : (s.jumpBy offset).space as = s.space as := rfl
@[simp] theorem State.space_raise (n : FaultName) (as : Nat) : (s.raise n).space as = s.space as := rfl
@[simp] theorem State.peek_advance (as : Nat) (addr : Nat) : s.advance.peek as addr = s.peek as addr := rfl
@[simp] theorem State.peek_jumpBy (offset as : Nat) (addr : Nat) : (s.jumpBy offset).peek as addr = s.peek as addr := rfl
@[simp] theorem State.peek_raise (n : FaultName) (as : Nat) (addr : Nat) : (s.raise n).peek as addr = s.peek as addr := rfl

end Sys2Proof.Machine
end

