-- ==== Sys2Proof/Laws/Ops.lean ====
section
/-! SUPPORT. For each shared operation, what it can do, said once: `mapOk`, `commit`, the reads and writes of one
word and of several, and the conversions. -/

namespace Sys2Proof.Machine

/-! ### Results that may be a fault -/

@[simp] theorem ok_bind {α β : Type} (x : α) (f : α → Except FaultName β) : (Except.ok x >>= f) = f x := rfl

@[simp] theorem error_bind {α β : Type} (n : FaultName) (f : α → Except FaultName β) :
    ((Except.error n : Except FaultName α) >>= f) = .error n := rfl

/-- A computation that answers passed through an answer of its first part. -/
theorem bind_eq_ok {α β : Type} {r : Except FaultName α} {f : α → Except FaultName β} {y : β} :
    (r >>= f) = .ok y ↔ ∃ x, r = .ok x ∧ f x = .ok y := by
  cases r <;> simp

/-- `mapOk` answers with the answers, in order. -/
theorem mapOk_eq_ok_iff {α β : Type} {f : α → Except FaultName β} :
    ∀ {l : List α} {r : List β}, mapOk f l = .ok r ↔ List.Forall₂ (fun x y => f x = .ok y) l r
  | [], r => by cases r <;> simp [mapOk]
  | x :: l, r => by
    have ih := @mapOk_eq_ok_iff α β f l
    cases hx : f x with
    | error n => cases r <;> simp [mapOk, hx]
    | ok y =>
      cases hl : mapOk f l with
      | error n =>
        cases r with
        | nil => simp [mapOk, hx, hl]
        | cons z t => simp [mapOk, hx, hl, ← ih]
      | ok u =>
        cases r with
        | nil => simp [mapOk, hx, hl]
        | cons z t => simp [mapOk, hx, hl, ← ih]

theorem mapOk_length {α β : Type} {f : α → Except FaultName β} {l : List α} {r : List β} (h : mapOk f l = .ok r) :
    r.length = l.length := (mapOk_eq_ok_iff.1 h).length_eq.symm

/-- `mapOk` over `0 .. n`, index by index. -/
theorem mapOk_range_eq_ok_iff {β : Type} {f : Nat → Except FaultName β} {n : Nat} {r : List β} :
    mapOk f (List.range n) = .ok r ↔ r.length = n ∧ ∀ i < n, ∀ y, r[i]? = some y → f i = .ok y := by
  rw [mapOk_eq_ok_iff, List.forall₂_iff_get]
  simp only [List.length_range, List.get_eq_getElem, List.getElem_range]
  constructor
  · rintro ⟨hl, h⟩
    refine ⟨hl.symm, fun i hi y hy => ?_⟩
    obtain ⟨hi', rfl⟩ := List.getElem?_eq_some_iff.1 hy
    exact h i hi hi'
  · rintro ⟨hl, h⟩
    exact ⟨hl.symm, fun i hi hi' => h i hi _ (List.getElem?_eq_getElem hi')⟩

/-! ### The end of an instruction -/

variable {s t : State}

@[simp] theorem State.commit_ok (s t : State) : s.commit (.ok t) = .next t := rfl

@[simp] theorem State.commit_error (s : State) (n : FaultName) : s.commit (.error n) = .next (s.raise n) := rfl

/-- An instruction that ends in `commit` answers a next state: its own effect, or the state with a fault raised. -/
theorem State.commit_cases {r : Except FaultName State} {o : Out} (h : s.commit r = o) :
    (∃ t, r = .ok t ∧ o = .next t) ∨ ∃ n, r = .error n ∧ o = .next (s.raise n) := by
  cases r with
  | ok t => exact .inl ⟨t, rfl, h.symm⟩
  | error n => exact .inr ⟨n, rfl, h.symm⟩

theorem State.commit_eq_next {r : Except FaultName State} (h : s.commit r = .next t) :
    r = .ok t ∨ ∃ n, r = .error n ∧ t = s.raise n := by
  rcases State.commit_cases h with ⟨t', hr, ht⟩ | ⟨n, hr, ht⟩ <;> cases ht
  · exact .inl hr
  · exact .inr ⟨n, hr, rfl⟩

/-! ### Conversions -/

variable {c : Config}

theorem compose_lt (hp : 0 < c.p) (w : Word) : compose c w < c.p := by
  unfold compose
  split
  · exact Nat.mod_lt _ hp
  · split <;> exact Nat.mod_lt _ hp

@[simp] theorem decompose_length (v : Nat) : (decompose c v).length = c.wordSize := by simp [decompose]

/-- Every element of a decomposition is an element of F. -/
theorem decompose_isWord {v : Nat} (hv : v < c.p) : IsWord c (decompose c v) := by
  refine ⟨decompose_length v, fun x hx => ?_⟩
  obtain ⟨i, _, rfl⟩ := List.mem_map.1 hx
  unfold decomposeElem
  split
  · exact hv
  · split
    · exact lt_of_le_of_lt ((Nat.mod_le _ _).trans (Nat.div_le_self _ _)) hv
    · split <;> omega
    · exact Nat.mod_lt _ (by omega)

/-! ### Reads -/

theorem accessFault_eq_none_iff {as ptr : Nat} :
    accessFault c as ptr = none ↔ as < 3 ∧ ptr % c.wordSize = 0 ∧ ptr + c.wordSize ≤ c.p := by
  unfold accessFault
  split
  · simp; omega
  · split
    · simp; omega
    · split
      · next h => simp [h]
      · next h => split <;> simp <;> omega

theorem State.readElem_eq_ok_iff {as addr v : Nat} :
    s.readElem as addr = .ok v ↔ inDomain s.cfg as addr = true ∧ (s.space as).read addr = some v := by
  unfold State.readElem
  cases hd : inDomain s.cfg as addr <;> simp
  cases hr : (s.space as).read addr <;> simp

@[simp] theorem State.readWord_immediate (s : State) (x : Nat) : s.readWord 0 x = .ok (decompose s.cfg x) := rfl

/-- A read of a cell answers the `WORD_SIZE` elements at consecutive addresses, every one in the domain and with
a value. -/
theorem State.readWord_eq_ok_iff {as ptr : Nat} {w : Word} (h0 : as ≠ 0) :
    s.readWord as ptr = .ok w ↔
      (as = 1 ∨ as = 2) ∧ ptr % s.cfg.wordSize = 0 ∧ ptr + s.cfg.wordSize ≤ s.cfg.p ∧ w.length = s.cfg.wordSize ∧
        ∀ j < s.cfg.wordSize, inDomain s.cfg as (ptr + j) = true ∧ s.peek as (ptr + j) = w[j]? := by
  unfold State.readWord
  rw [if_neg h0]
  cases ha : accessFault s.cfg as ptr with
  | some n =>
    have : ¬ accessFault s.cfg as ptr = none := by simp [ha]
    rw [accessFault_eq_none_iff] at this
    simp only [reduceCtorEq, false_iff]
    rintro ⟨h1, h2, h3, -⟩
    exact this ⟨by omega, h2, h3⟩
  | none =>
    rw [accessFault_eq_none_iff] at ha
    have has : as = 1 ∨ as = 2 := by omega
    simp only [mapOk_range_eq_ok_iff, State.readElem_eq_ok_iff, State.peek, has, ha.2.1, ha.2.2,
      true_and]
    refine and_congr_right fun hl => forall₂_congr fun j hj => ?_
    have hj' : j < w.length := by omega
    simp [List.getElem?_eq_getElem hj']

/-- A read answers a word of field elements, if every value held is one. -/
theorem State.readWord_isWord {as ptr : Nat} {w : Word} (hptr : ptr < s.cfg.p) (hw : s.Wf)
    (h : s.readWord as ptr = .ok w) : IsWord s.cfg w := by
  by_cases h0 : as = 0
  · subst h0; cases h; exact decompose_isWord hptr
  · obtain ⟨has, -, -, hl, hr⟩ := (State.readWord_eq_ok_iff h0).1 h
    refine ⟨hl, fun v hv => ?_⟩
    obtain ⟨j, hj, rfl⟩ := List.getElem_of_mem hv
    have := (hr j (by omega)).2
    rw [List.getElem?_eq_getElem hj, State.peek, if_pos has] at this
    have fits : FitsSpace s.cfg as (s.space as) := by
      rcases has with rfl | rfl
      · exact hw.regs_fit
      · exact hw.mem_fit
    exact (fits.read this).2

theorem State.readFe_eq_ok_iff {as ptr v : Nat} :
    s.readFe as ptr = .ok v ↔ ∃ w, s.readWord as ptr = .ok w ∧ v = compose s.cfg w := by
  unfold State.readFe
  cases s.readWord as ptr <;> simp [eq_comm]

theorem State.readFe_lt {as ptr v : Nat} (hp : 0 < s.cfg.p) (h : s.readFe as ptr = .ok v) : v < s.cfg.p := by
  obtain ⟨w, -, rfl⟩ := State.readFe_eq_ok_iff.1 h
  exact compose_lt hp w

/-! ### Writes -/

theorem writeFault_eq_none_iff {as ptr : Nat} :
    writeFault c as ptr = none ↔
      (as = 1 ∨ as = 2) ∧ ptr % c.wordSize = 0 ∧ ptr + c.wordSize ≤ c.p ∧
        ∀ j < c.wordSize, inDomain c as (ptr + j) = true := by
  unfold writeFault
  split
  · next h => simp [h]
  · next h =>
    cases ha : accessFault c as ptr with
    | some n =>
      have : ¬ accessFault c as ptr = none := by simp [ha]
      rw [accessFault_eq_none_iff] at this
      simp only [reduceCtorEq, false_iff]
      rintro ⟨h1, h2, h3, -⟩
      exact this ⟨by omega, h2, h3⟩
    | none =>
      rw [accessFault_eq_none_iff] at ha
      have has : as = 1 ∨ as = 2 := by omega
      simp [has, ha.2.1, ha.2.2]

/-- A destination in a space that cannot be written faults at every address, with the same name. -/
theorem writeFault_of_destFault {as : Nat} {f : FaultName} (h : destFault as = some f) (ptr : Nat) :
    writeFault c as ptr = some f := by
  unfold destFault at h
  unfold writeFault accessFault
  split at h
  · next h0 => simpa [h0] using h
  · next h0 =>
    split at h
    · next h3 => simpa [h3] using h
    · next h3 =>
      split at h
      · next h4 => simpa [h0, h3, h4] using h
      · cases h

/-- A multi-word destination answers a state when its address-space element names a space that can be written, and
then what its words answer, written one after another. -/
theorem State.writeDest_eq_ok_iff {as q : Nat} {ws : List Word} :
    s.writeDest as q ws = .ok t ↔ destFault as = none ∧ s.writeWordsFrom as q 0 ws = .ok t := by
  unfold State.writeDest
  cases destFault as <;> simp

/-- The words of a multi-word destination in a space that can be written are written one after another. -/
theorem State.writeDest_of_space {as : Nat} (h : as = 1 ∨ as = 2) (q : Nat) (ws : List Word) :
    s.writeDest as q ws = s.writeWordsFrom as q 0 ws := by
  rcases h with rfl | rfl <;> rfl

/-- A multi-word destination of at least one word is what its words are, written one after another. -/
theorem State.writeDest_cons (as q : Nat) (w : Word) (ws : List Word) :
    s.writeDest as q (w :: ws) = s.writeWordsFrom as q 0 (w :: ws) := by
  unfold State.writeDest
  cases h : destFault as with
  | none => rfl
  | some f => simp [State.writeWordsFrom, State.writeWord, writeFault_of_destFault h]

theorem State.writeWord_eq_ok_iff {as ptr : Nat} {w : Word} :
    s.writeWord as ptr w = .ok t ↔ writeFault s.cfg as ptr = none ∧ t = s.putWord as ptr w := by
  unfold State.writeWord
  cases writeFault s.cfg as ptr <;> simp [eq_comm]

/-- Storing a word leaves every other element of both address spaces alone. -/
theorem State.peek_putWord_outside {as ptr : Nat} {w : Word} (has : as = 1 ∨ as = 2) {as' addr : Nat}
    (h : as' ≠ as ∨ addr < ptr ∨ ptr + w.length ≤ addr) : (s.putWord as ptr w).peek as' addr = s.peek as' addr := by
  unfold State.peek State.putWord
  by_cases hk : as' = 1 ∨ as' = 2
  · rw [if_pos hk, if_pos hk]
    by_cases he : as' = as
    · subst he
      rw [State.setSpace_space_same, Memory.read_writeRun_outside _ _ _ (by omega)]
    · rw [State.setSpace_space_other s _ (by simpa using has) (by simpa using hk) (Ne.symm he)]
  · rw [if_neg hk, if_neg hk]

/-- A stored word is at its addresses. -/
theorem State.peek_putWord_inside {as ptr : Nat} {w : Word} (has : as = 1 ∨ as = 2) (hm : (s.space as).wf) {j : Nat}
    (hj : j < w.length) : (s.putWord as ptr w).peek as (ptr + j) = w[j]? := by
  unfold State.peek State.putWord
  rw [if_pos has, State.setSpace_space_same, Memory.read_writeRun_inside _ hm _ hj]

/-- Several words written: everything but the address spaces is as it was. -/
theorem State.writeWordsFrom_same {as q : Nat} :
    ∀ {ws : List Word} {s t : State} {i : Nat}, s.writeWordsFrom as q i ws = .ok t →
      s.SameBesides t ∧ t.pc = s.pc
  | [], s, t, i, h => by cases h; simp [State.SameBesides, State.SameLaunch]
  | w :: r, s, t, i, h => by
    simp only [State.writeWordsFrom] at h
    cases hw : s.writeWord as (wordAddr s.cfg q i) w with
    | error n => simp [hw] at h
    | ok u =>
      obtain ⟨-, rfl⟩ := State.writeWord_eq_ok_iff.1 hw
      simp only [hw] at h
      simpa [State.SameBesides, State.SameLaunch] using State.writeWordsFrom_same h

/-- Several words written: an element outside all of them is as it was. -/
theorem State.peek_writeWordsFrom_outside {as q : Nat} :
    ∀ {ws : List Word} {s t : State} {i : Nat}, s.writeWordsFrom as q i ws = .ok t →
      (∀ w ∈ ws, w.length = s.cfg.wordSize) → ∀ {as' addr : Nat},
      (as' = as → ∀ k < ws.length, ¬ InWord s.cfg (wordAddr s.cfg q (i + k)) addr) →
      t.peek as' addr = s.peek as' addr
  | [], s, t, i, h, _, _, _, _ => by cases h; rfl
  | w :: r, s, t, i, h, hl, as', addr, ho => by
    simp only [State.writeWordsFrom] at h
    cases hw : s.writeWord as (wordAddr s.cfg q i) w with
    | error n => simp [hw] at h
    | ok u =>
      obtain ⟨hf, rfl⟩ := State.writeWord_eq_ok_iff.1 hw
      have has := (writeFault_eq_none_iff.1 hf).1
      simp only [hw] at h
      have hwl := hl w List.mem_cons_self
      rw [State.peek_writeWordsFrom_outside h (by simpa using fun x hx => hl x (List.mem_cons_of_mem _ hx))]
      · refine State.peek_putWord_outside has ?_
        by_cases he : as' = as
        · have := ho he 0 (by simp)
          simp only [InWord, Nat.add_zero] at this
          omega
        · exact .inl he
      · intro he k hk
        have := ho he (k + 1) (by simpa using hk)
        simpa [Nat.add_assoc, Nat.add_comm 1 k] using this

/-- A checked write of a word of field elements keeps every value in range. -/
theorem State.Wf.putWord (h : s.Wf) {as ptr : Nat} {w : Word} (hf : writeFault s.cfg as ptr = none)
    (hw : IsWord s.cfg w) : (s.putWord as ptr w).Wf := by
  obtain ⟨has, -, -, hd⟩ := writeFault_eq_none_iff.1 hf
  have fits : FitsSpace s.cfg as (s.space as) → FitsSpace s.cfg as ((s.space as).writeRun ptr w) := by
    rintro ⟨h1, h2, h3⟩
    refine ⟨Memory.writeRun_wf w h1 ptr, fun x hx => ?_, by simpa using h3⟩
    rcases Memory.mem_cells_writeRun w hx with ⟨h4, h5, h6⟩ | hx
    · have := hd (x.1 - ptr) (by have := hw.1; omega)
      exact ⟨by rwa [Nat.add_sub_cancel' h4] at this, hw.2 _ h6⟩
    · exact h2 x hx
  refine ⟨by simpa using h.p_gt_one, by simpa using h.pc_lt, ?_, ?_, by simpa using h.hints_fit,
    by simpa using h.inputs_fit, by simpa using h.log_lt, by simpa using h.report_iff⟩
  · rcases has with rfl | rfl
    · simpa [State.putWord, State.setSpace_regs, State.space] using fits h.regs_fit
    · simpa [State.putWord, State.setSpace_regs] using h.regs_fit
  · rcases has with rfl | rfl
    · simpa [State.putWord, State.setSpace_mem] using h.mem_fit
    · simpa [State.putWord, State.setSpace_mem, State.space] using fits h.mem_fit

/-- Several checked writes keep every value in range. -/
theorem State.Wf.writeWordsFrom {as q : Nat} :
    ∀ {ws : List Word} {s t : State} {i : Nat}, s.Wf → (∀ w ∈ ws, IsWord s.cfg w) →
      s.writeWordsFrom as q i ws = .ok t → t.Wf
  | [], s, t, i, hs, _, h => by cases h; exact hs
  | w :: r, s, t, i, hs, hl, h => by
    simp only [State.writeWordsFrom] at h
    cases hw : s.writeWord as (wordAddr s.cfg q i) w with
    | error n => simp [hw] at h
    | ok u =>
      obtain ⟨hf, rfl⟩ := State.writeWord_eq_ok_iff.1 hw
      simp only [hw] at h
      exact State.Wf.writeWordsFrom (hs.putWord hf (hl w List.mem_cons_self))
        (by simpa using fun x hx => hl x (List.mem_cons_of_mem _ hx)) h

end Sys2Proof.Machine
end

