-- ==== Sys2Proof/Laws/PerInstr.lean ====
section
/-! SUPPORT. Per-instruction families: a statement about the instruction as syntax, and one lemma per constructor. -/

namespace Sys2Proof.Laws

/-- An instruction is encoded in six elements: the number of its mnemonic, then its five elements in order (R70). -/
def EncodesInSixElements.Statement (i : Instr) : Prop :=
  ∀ c : Config, (encode c i).toList = c.opcodeOf i.mnemonic :: i.elements

theorem EncodesInSixElements.loadw (x1 x2 x3 x4 x5 : Nat) : EncodesInSixElements.Statement (.loadw x1 x2 x3 x4 x5) :=
  fun _ => rfl

theorem EncodesInSixElements.storew (x1 x2 x3 x4 x5 : Nat) : EncodesInSixElements.Statement (.storew x1 x2 x3 x4 x5) :=
  fun _ => rfl

theorem EncodesInSixElements.jal (x1 x2 x3 x4 x5 : Nat) : EncodesInSixElements.Statement (.jal x1 x2 x3 x4 x5) :=
  fun _ => rfl

theorem EncodesInSixElements.beq (x1 x2 x3 x4 x5 : Nat) : EncodesInSixElements.Statement (.beq x1 x2 x3 x4 x5) :=
  fun _ => rfl

theorem EncodesInSixElements.bne (x1 x2 x3 x4 x5 : Nat) : EncodesInSixElements.Statement (.bne x1 x2 x3 x4 x5) :=
  fun _ => rfl

theorem EncodesInSixElements.terminate (x1 x2 x3 x4 x5 : Nat) : EncodesInSixElements.Statement (.terminate x1 x2 x3 x4 x5) :=
  fun _ => rfl

theorem EncodesInSixElements.shintw (x1 x2 x3 x4 x5 : Nat) : EncodesInSixElements.Statement (.shintw x1 x2 x3 x4 x5) :=
  fun _ => rfl

theorem EncodesInSixElements.publish (x1 x2 x3 x4 x5 : Nat) : EncodesInSixElements.Statement (.publish x1 x2 x3 x4 x5) :=
  fun _ => rfl

theorem EncodesInSixElements.hintInput (x1 x2 x3 x4 x5 : Nat) : EncodesInSixElements.Statement (.hintInput x1 x2 x3 x4 x5) :=
  fun _ => rfl

theorem EncodesInSixElements.hintBits (x1 x2 x3 x4 x5 : Nat) : EncodesInSixElements.Statement (.hintBits x1 x2 x3 x4 x5) :=
  fun _ => rfl

theorem EncodesInSixElements.fadd (x1 x2 x3 x4 x5 : Nat) : EncodesInSixElements.Statement (.fadd x1 x2 x3 x4 x5) :=
  fun _ => rfl

theorem EncodesInSixElements.fsub (x1 x2 x3 x4 x5 : Nat) : EncodesInSixElements.Statement (.fsub x1 x2 x3 x4 x5) :=
  fun _ => rfl

theorem EncodesInSixElements.fmul (x1 x2 x3 x4 x5 : Nat) : EncodesInSixElements.Statement (.fmul x1 x2 x3 x4 x5) :=
  fun _ => rfl

theorem EncodesInSixElements.fdiv (x1 x2 x3 x4 x5 : Nat) : EncodesInSixElements.Statement (.fdiv x1 x2 x3 x4 x5) :=
  fun _ => rfl

theorem EncodesInSixElements.fe4add (x1 x2 x3 x4 x5 : Nat) : EncodesInSixElements.Statement (.fe4add x1 x2 x3 x4 x5) :=
  fun _ => rfl

theorem EncodesInSixElements.fe4sub (x1 x2 x3 x4 x5 : Nat) : EncodesInSixElements.Statement (.fe4sub x1 x2 x3 x4 x5) :=
  fun _ => rfl

theorem EncodesInSixElements.bbe4mul (x1 x2 x3 x4 x5 : Nat) : EncodesInSixElements.Statement (.bbe4mul x1 x2 x3 x4 x5) :=
  fun _ => rfl

theorem EncodesInSixElements.bbe4inv (x1 x2 x3 x4 x5 : Nat) : EncodesInSixElements.Statement (.bbe4inv x1 x2 x3 x4 x5) :=
  fun _ => rfl

theorem EncodesInSixElements.compressPoseidon2 (x1 x2 x3 x4 x5 : Nat) : EncodesInSixElements.Statement (.compressPoseidon2 x1 x2 x3 x4 x5) :=
  fun _ => rfl

theorem EncodesInSixElements.permPoseidon2 (x1 x2 x3 x4 x5 : Nat) : EncodesInSixElements.Statement (.permPoseidon2 x1 x2 x3 x4 x5) :=
  fun _ => rfl

theorem EncodesInSixElements.permKeccak (x1 x2 x3 x4 x5 : Nat) : EncodesInSixElements.Statement (.permKeccak x1 x2 x3 x4 x5) :=
  fun _ => rfl

theorem EncodesInSixElements.fail (x1 x2 x3 x4 x5 : Nat) : EncodesInSixElements.Statement (.fail x1 x2 x3 x4 x5) :=
  fun _ => rfl

theorem EncodesInSixElements.printf (x1 x2 x3 x4 x5 : Nat) : EncodesInSixElements.Statement (.printf x1 x2 x3 x4 x5) :=
  fun _ => rfl

end Sys2Proof.Laws
end

