-- ==== Sys2Proof/Laws/Step.lean ====
section
/-! SUPPORT. What decoding, fetch and the step can do, said once. -/

namespace Sys2Proof.Machine

/-- Every mnemonic is in the list of R78. -/
theorem mem_all (m : Mnemonic) : m ∈ Mnemonic.all := by cases m <;> decide

@[simp] theorem mnemonic_instr (m : Mnemonic) (a b c d e : Nat) : (m.instr a b c d e).mnemonic = m := by
  cases m <;> rfl

@[simp] theorem elements_instr (m : Mnemonic) (a b c d e : Nat) : (m.instr a b c d e).elements = [a, b, c, d, e] := by
  cases m <;> rfl

/-- The mnemonic that a number selects has that number. -/
theorem opcodeOf_of_mnemonicOf {c : Config} {x : Nat} {m : Mnemonic} (h : c.mnemonicOf x = some m) :
    c.opcodeOf m = x := by simpa using List.find?_some h

theorem mnemonicOf_eq_none_iff {c : Config} {x : Nat} : c.mnemonicOf x = none ↔ ∀ m, c.opcodeOf m ≠ x := by
  simp [Config.mnemonicOf, List.find?_eq_none, mem_all]

/-- A group decodes exactly to the instruction of its mnemonic and its elements, all of them in F. -/
theorem decode_eq_ok_iff {c : Config} {t : Tuple} {i : Instr} :
    decode c t = .ok i ↔
      t.wellFormed c.p = true ∧ ∃ m, c.mnemonicOf t.opcode = some m ∧ i = m.instr t.a t.b t.c t.d t.e := by
  unfold decode
  cases hw : t.wellFormed c.p
  · simp
  · cases hm : c.mnemonicOf t.opcode <;> simp [eq_comm]

theorem fetchTuple_eq_ok_iff {s : State} {t : Tuple} :
    fetchTuple s = .ok t ↔ s.pc % s.cfg.instWidth = 0 ∧ s.program[s.pc / s.cfg.instWidth]? = some t := by
  unfold fetchTuple
  by_cases h : s.pc % s.cfg.instWidth = 0
  · cases hp : s.program[s.pc / s.cfg.instWidth]? <;> simp [h]
  · simp [h]

/-- The next instruction is the one decoded from the group at `pc`, of a running machine that performs it. -/
theorem nextInstr_eq_ok_iff {s : State} {i : Instr} :
    nextInstr s = .ok i ↔
      s.status = .running ∧ ∃ t, fetchTuple s = .ok t ∧ decode s.cfg t = .ok i ∧
        runnable s.cfg i.mnemonic = true := by
  unfold nextInstr
  cases hs : s.status
  · cases hf : fetchTuple s with
    | error n => simp
    | ok t =>
      cases hd : decode s.cfg t with
      | error x => cases x <;> simp [hd]
      | ok j =>
        simp only [true_and, Except.ok.injEq, exists_eq_left', hd]
        by_cases hr : runnable s.cfg j.mnemonic = true
        · simp only [hr, if_true, Except.ok.injEq]
          exact ⟨fun h => ⟨h, h ▸ hr⟩, fun h => h.1⟩
        · simp only [hr, Bool.false_eq_true, if_false, reduceCtorEq, false_iff, not_and]
          rintro rfl
          exact hr
  · simp
  · simp

theorem step_of_nextInstr {s : State} {i : Instr} (h : nextInstr s = .ok i) : step s = exec i s := by
  simp [step, h]

/-- A step of the machine to a next state is the step of the instruction at `pc`, or raises a fault of fetch or
dispatch; and the machine was running. -/
theorem step_eq_next {s t : State} (h : step s = .next t) :
    s.status = .running ∧ ((∃ i, nextInstr s = .ok i ∧ exec i s = .next t) ∨ ∃ n, t = s.raise n) := by
  unfold step at h
  cases hn : nextInstr s with
  | ok i =>
    simp only [hn] at h
    exact ⟨(nextInstr_eq_ok_iff.1 hn).1, .inl ⟨i, rfl, h⟩⟩
  | error o =>
    simp only [hn] at h
    subst h
    unfold nextInstr at hn
    cases hs : s.status <;> simp only [hs] at hn
    · refine ⟨rfl, .inr ?_⟩
      cases hf : fetchTuple s with
      | error n => simp only [hf] at hn; cases hn; exact ⟨n, rfl⟩
      | ok u =>
        simp only [hf] at hn
        cases hd : decode s.cfg u with
        | error x =>
          simp only [hd] at hn
          cases x <;> simp at hn
          exact ⟨_, hn.symm⟩
        | ok j =>
          simp only [hd] at hn
          split at hn
          · cases hn
          · cases hn; exact ⟨_, rfl⟩
    · cases hn
    · cases hn

end Sys2Proof.Machine
end

