-- ==== Sys2Proof/Laws/Run.lean ====
section
/-! SUPPORT. What a run can do, said once. -/

namespace Sys2Proof.Machine

variable {s t : State}

@[simp] theorem State.runFor_zero (s : State) : s.runFor 0 = .next s := rfl

theorem State.runFor_succ_of_step (h : step s = .next t) (n : Nat) : s.runFor (n + 1) = t.runFor n := by
  simp [State.runFor, h]

/-- A run of `n + 1` steps is a step and a run of `n` steps. -/
theorem State.runFor_succ_eq_next {n : Nat} : s.runFor (n + 1) = .next t ↔ ∃ u, step s = .next u ∧ u.runFor n = .next t := by
  simp only [State.runFor]
  cases step s <;> simp

/-- A run of `n + k` steps is a run of `n` steps and a run of `k` steps. -/
theorem State.runFor_add_eq_next (k : Nat) :
    ∀ {n : Nat} {s : State}, s.runFor (n + k) = .next t ↔ ∃ u, s.runFor n = .next u ∧ u.runFor k = .next t
  | 0, s => by simp
  | n + 1, s => by
    rw [Nat.add_right_comm]
    simp only [State.runFor_succ_eq_next, State.runFor_add_eq_next k (n := n)]
    exact ⟨fun ⟨u, h1, v, h2, h3⟩ => ⟨v, ⟨u, h1, h2⟩, h3⟩, fun ⟨v, ⟨u, h1, h2⟩, h3⟩ => ⟨u, h1, v, h2, h3⟩⟩

/-- A state that steps to itself does so for ever. -/
theorem State.runFor_of_step_self (h : step s = .next s) : ∀ n, s.runFor n = .next s
  | 0 => rfl
  | n + 1 => by rw [State.runFor_succ_of_step h, State.runFor_of_step_self h n]

/-- The state at the end of a run is not Running. -/
theorem State.outcome_isSome_iff : s.outcome.isSome = true ↔ s.status ≠ .running := by
  unfold State.outcome
  cases s.status <;> simp

end Sys2Proof.Machine
end

