-- ==== Sys2Proof/Tests/Slice0.lean ====
section
/-! SUPPORT. The model's own tests. Expected results are those of spec/95_test_vectors.md (the vector's id stands in
each comment) or of an example in a rule of spec/. Then, for each statement with hypotheses, a state and operands that
meet them. -/

open Sys2Proof Sys2Proof.Machine

namespace Sys2Proof.Tests

/-- The reference machine with the listed cells and no other (spec/95_test_vectors.md section 0). -/
def machine (regs mem : List (Nat × Nat)) : State :=
  { State.reset with regs := ⟨[], regs⟩, mem := ⟨[], mem⟩ }

/-- The machine of spec/95_test_vectors.md section 2.10: words of four limbs of 8 bits. -/
def machine4 (regs mem : List (Nat × Nat)) : State :=
  { machine regs mem with cfg := { Config.reference with wordSize := 4 } }

/-- The outcome is a next state with a property. -/
def after (o : Out) (f : State → Bool) : Bool :=
  match o with
  | .next t => f t
  | _ => false

/-- The instruction raises the fault and changes nothing else. -/
abbrev raises (i : Instr) (s : State) (f : FaultName) : Prop :=
  after (exec i s) (fun t => t = { s with status := .failed, report := some f }) = true

/-- The outcome is the next state `t`. -/
abbrev becomes (o : Out) (t : State) : Prop := after o (fun u => u = t) = true

/-- `v, v + 1, ...` at `k` consecutive addresses from `a`. -/
def run (a v k : Nat) : List (Nat × Nat) := (List.range k).map fun i => (a + i, v + i)

/-! ### Well-formedness: one ill-formed term for each check -/

theorem test_wellFormed_accepts : Instr.wellFormed babyBear (.fadd 2013265920 0 1 2 3) = true := by decide
theorem test_wellFormed_refuses_a : Instr.wellFormed babyBear (.fadd 2013265921 0 0 0 0) = false := by decide
theorem test_wellFormed_refuses_b : Instr.wellFormed babyBear (.fadd 0 2013265921 0 0 0) = false := by decide
theorem test_wellFormed_refuses_c : Instr.wellFormed babyBear (.fadd 0 0 2013265921 0 0) = false := by decide
theorem test_wellFormed_refuses_d : Instr.wellFormed babyBear (.fadd 0 0 0 2013265921 0) = false := by decide
theorem test_wellFormed_refuses_e : Instr.wellFormed babyBear (.fadd 0 0 0 0 2013265921) = false := by decide
theorem test_tuple_refuses_opcode : Tuple.wellFormed babyBear ⟨2013265921, 0, 0, 0, 0, 0⟩ = false := by decide
theorem test_tuple_refuses_a : Tuple.wellFormed babyBear ⟨0, 2013265921, 0, 0, 0, 0⟩ = false := by decide
theorem test_tuple_refuses_b : Tuple.wellFormed babyBear ⟨0, 0, 2013265921, 0, 0, 0⟩ = false := by decide
theorem test_tuple_refuses_c : Tuple.wellFormed babyBear ⟨0, 0, 0, 2013265921, 0, 0⟩ = false := by decide
theorem test_tuple_refuses_d : Tuple.wellFormed babyBear ⟨0, 0, 0, 0, 2013265921, 0⟩ = false := by decide
theorem test_tuple_refuses_e : Tuple.wellFormed babyBear ⟨0, 0, 0, 0, 0, 2013265921⟩ = false := by decide

/-! ### Decoding: the group of every constructor, written out from R78 and the examples of the rules -/

theorem test_decode_loadw : decodeElements .reference [0, 8, 3, 4, 1, 2] = .ok (.loadw 8 3 4 1 2) := by decide
theorem test_decode_storew : decodeElements .reference [1, 42, 9, 0, 0, 1] = .ok (.storew 42 9 0 0 1) := by decide
theorem test_decode_jal : decodeElements .reference [2, 1, 5, 0, 1, 0] = .ok (.jal 1 5 0 1 0) := by decide
theorem test_decode_beq : decodeElements .reference [3, 2, 9, 4, 1, 0] = .ok (.beq 2 9 4 1 0) := by decide
theorem test_decode_bne : decodeElements .reference [4, 3, 0, 2013265918, 1, 0] = .ok (.bne 3 0 2013265918 1 0) := by decide
theorem test_decode_terminate : decodeElements .reference [5, 0, 0, 0, 0, 0] = .ok (.terminate 0 0 0 0 0) := by decide
theorem test_decode_shintw : decodeElements .reference [6, 4, 2, 0, 1, 2] = .ok (.shintw 4 2 0 1 2) := by decide
theorem test_decode_publish : decodeElements .reference [7, 0, 5, 0, 0, 1] = .ok (.publish 0 5 0 0 1) := by decide
theorem test_decode_hintInput : decodeElements .reference [8, 0, 0, 0, 0, 0] = .ok (.hintInput 0 0 0 0 0) := by decide
theorem test_decode_hintBits : decodeElements .reference [9, 6, 0, 0, 1, 0] = .ok (.hintBits 6 0 0 1 0) := by decide
theorem test_decode_fadd : decodeElements .reference [10, 3, 2, 5, 1, 0] = .ok (.fadd 3 2 5 1 0) := by decide
theorem test_decode_fsub : decodeElements .reference [11, 3, 2, 5, 1, 0] = .ok (.fsub 3 2 5 1 0) := by decide
theorem test_decode_fmul : decodeElements .reference [12, 3, 2, 987654321, 1, 0] = .ok (.fmul 3 2 987654321 1 0) := by decide
theorem test_decode_fdiv : decodeElements .reference [13, 3, 2, 3, 1, 0] = .ok (.fdiv 3 2 3 1 0) := by decide
theorem test_decode_fe4add : decodeElements .reference [14, 24, 16, 20, 1, 1] = .ok (.fe4add 24 16 20 1 1) := by decide
theorem test_decode_fe4sub : decodeElements .reference [15, 24, 16, 20, 1, 1] = .ok (.fe4sub 24 16 20 1 1) := by decide
theorem test_decode_bbe4mul : decodeElements .reference [16, 24, 16, 20, 1, 1] = .ok (.bbe4mul 24 16 20 1 1) := by decide
theorem test_decode_bbe4inv : decodeElements .reference [17, 24, 16, 0, 1, 0] = .ok (.bbe4inv 24 16 0 1 0) := by decide
theorem test_decode_compressPoseidon2 : decodeElements .reference [18, 1, 2, 3, 1, 2] = .ok (.compressPoseidon2 1 2 3 1 2) := by decide
theorem test_decode_permPoseidon2 : decodeElements .reference [19, 1, 0, 3, 1, 2] = .ok (.permPoseidon2 1 0 3 1 2) := by decide
theorem test_decode_permKeccak : decodeElements .reference [20, 1, 0, 3, 1, 2] = .ok (.permKeccak 1 0 3 1 2) := by decide
theorem test_decode_fail : decodeElements .reference [21, 0, 0, 0, 0, 0] = .ok (.fail 0 0 0 0 0) := by decide
theorem test_decode_printf : decodeElements .reference [22, 5, 0, 0, 1, 0] = .ok (.printf 5 0 0 1 0) := by decide

/-- DS3's opcode is the number of no mnemonic. -/
theorem test_decode_unknown : decodeElements .reference [23, 0, 0, 0, 0, 0] = .error (.opcodeUnknown 23) := by decide
/-- DS11: `p` is no element. -/
theorem test_decode_out_of_range : decodeElements .reference [5, 2013265921, 0, 0, 0, 0] = .error .elementOutOfRange := by
  decide
theorem test_decode_wrong_length : decodeElements .reference [5, 0, 0, 0, 0] = .error (.wrongLength 5) := by decide
/-- P1, the line at address 4: an operand `-2`. -/
theorem test_assembleLine : assembleLine babyBear "BNE 2, 0, -2, 1, 0" = some (.bne 2 0 2013265919 1 0) := by decide
/-- R84's example, written and read back. -/
theorem test_asmLine : asmLine (.fadd 8 8 5 1 0) = "FADD 8, 8, 5, 1, 0" ∧
    assembleLine babyBear "FADD 8, 8, 5, 1, 0" = some (.fadd 8 8 5 1 0) ∧ assembleLine babyBear "FADD 8, 8, 5, 1" = none := by
  decide
/-- The table's numbering: element `k` from bit `32 k`. -/
theorem test_decodeTableWord : decodeTableWord 192 (0 + 8 * 2 ^ 32 + 3 * 2 ^ 64 + 4 * 2 ^ 96 + 1 * 2 ^ 128 + 2 * 2 ^ 160) =
    some (.loadw 8 3 4 1 2) := by decide
theorem test_decodeTableWord_short : decodeTableWord 8 5 = some (.terminate 0 0 0 0 0) := by decide
/-- `withFetchWord` runs exactly the instruction, from reset: SW2. -/
theorem test_withFetchWord : after (step (State.reset.withFetchWord 192 (1 + 42 * 2 ^ 32 + 9 * 2 ^ 64 + 1 * 2 ^ 160)))
    (fun t => t.peek 1 9 = some 42 ∧ t.pc = 1) = true := by decide

/-! ### Vectors, at most two for an instruction -/

/-- LW1. -/
theorem test_loadw_offset : after (exec (.loadw 8 3 4 1 2) (machine [(4, 100)] [(103, 77)]))
    (fun t => t.peek 1 8 = some 77 ∧ t.pc = 1) = true := by decide
/-- As LW3, from a base of 100: the offset `p - 1` reaches one below it. -/
theorem test_loadw_below_base : after (exec (.loadw 8 2013265920 4 1 2) (machine [(4, 100)] [(99, 9)]))
    (fun t => t.peek 1 8 = some 9) = true := by decide
/-- SW5. -/
theorem test_storew_top : after (exec (.storew 8 2013265820 4 1 2) (machine [(4, 100), (8, 77)] []))
    (fun t => t.peek 2 2013265920 = some 77) = true := by decide
/-- SW7. -/
theorem test_storew_over_base : after (exec (.storew 8 0 4 1 1) (machine [(4, 4), (8, 77)] []))
    (fun t => t.peek 1 4 = some 77) = true := by decide
/-- JL2. -/
theorem test_jal_back : after (exec (.jal 1 2013265918 0 1 0) ({ machine [] [] with pc := 10 }))
    (fun t => t.peek 1 1 = some 11 ∧ t.pc = 7) = true := by decide
/-- JL3. -/
theorem test_jal_immediate : raises (.jal 1 5 0 0 0) ({ machine [] [] with pc := 10 }) .writeImm := by decide
/-- BQ1. -/
theorem test_beq_taken : after (exec (.beq 2 9 4 1 0) ({ machine [(2, 9)] [] with pc := 20 }))
    (fun t => t.pc = 24) = true := by decide
/-- WS5: both words compose to 0 and differ. -/
theorem test_beq_words : after (exec (.beq 4 8 5 1 1) (machine4 ([(4, 1), (5, 0), (6, 0), (7, 120), (8, 0), (9, 0), (10, 0), (11, 0)]) []))
    (fun t => t.pc = 1) = true := by decide
/-- BN1. -/
theorem test_bne_back : after (exec (.bne 3 0 2013265918 1 0) ({ machine [(3, 2)] [] with pc := 6 }))
    (fun t => t.pc = 3) = true := by decide
/-- BN2. -/
theorem test_bne_falls : after (exec (.bne 3 0 2013265918 1 0) ({ machine [(3, 0)] [] with pc := 6 }))
    (fun t => t.pc = 7) = true := by decide
/-- TM2. -/
theorem test_terminate : after (exec (.terminate 9 9 9 9 9) ({ machine [] [] with pc := 7 }))
    (fun t => t.status = .terminated ∧ t.pc = 7) = true := by decide
/-- SH1. -/
theorem test_shintw : after (exec (.shintw 4 2 0 1 2) ({ machine [(4, 100)] [] with hintStream := [[42], [7]] }))
    (fun t => t.peek 2 102 = some 42 ∧ t.hintStream = [[7]]) = true := by decide
/-- SH4: the word is not popped. -/
theorem test_shintw_keeps_stream : raises (.shintw 4 2 0 1 0) ({ machine [(4, 100)] [] with hintStream := [[42]] }) .writeImm := by decide
/-- PB1. -/
theorem test_publish : after (exec (.publish 0 5 0 0 1) ({ machine [(5, 15)] [] with pv := [15, 0], cfg := { Config.reference with numPublicValues := 2 } }))
    (fun t => t.pc = 1 ∧ t.status = .running) = true := by decide
/-- PB2. -/
theorem test_publish_mismatch : raises (.publish 0 5 0 0 1) ({ machine [(5, 14)] [] with pv := [15, 0], cfg := { Config.reference with numPublicValues := 2 } }) .publicMismatch := by decide
/-- HI1. -/
theorem test_hintInput : after (exec (.hintInput 0 0 0 0 0) ({ machine [] [] with hintStream := [[1]], inputs := [[[3], [4]], [[9]]] }))
    (fun t => t.hintStream = [[3], [4]] ∧ t.inputs = [[[9]]]) = true := by decide
/-- HI3. -/
theorem test_hintInput_empty : after (exec (.hintInput 0 0 0 0 0) ({ machine [] [] with hintStream := [[1]], inputs := [[]] }))
    (fun t => t.hintStream = [] ∧ t.inputs = []) = true := by decide
/-- HB3. -/
theorem test_hintBits_low_first : after (exec (.hintBits 6 0 0 1 0) ({ machine [(6, 13)] [] with cfg := { Config.reference with hintBitsLen := 4 } }))
    (fun t => t.hintStream = [[1], [0], [1], [1]]) = true := by decide
/-- HB5. -/
theorem test_hintBits_short : after (exec (.hintBits 6 0 0 1 0) ({ machine [(6, 13)] [] with cfg := { Config.reference with hintBitsLen := 2 } }))
    (fun t => t.hintStream = [[1], [0]]) = true := by decide
/-- FA1. -/
theorem test_fadd_wraps : after (exec (.fadd 3 2 5 1 0) (machine [(2, 2013265920)] []))
    (fun t => t.peek 1 3 = some 4 ∧ t.pc = 1) = true := by decide
/-- FA5. -/
theorem test_fadd_in_place : after (exec (.fadd 2 2 2 1 1) (machine [(2, 2013265920)] []))
    (fun t => t.peek 1 2 = some 2013265919) = true := by decide
/-- FS1. -/
theorem test_fsub_borrows : after (exec (.fsub 3 2 5 1 0) (machine [(2, 3)] []))
    (fun t => t.peek 1 3 = some 2013265919) = true := by decide
/-- FS4. -/
theorem test_fsub_minus_one : after (exec (.fsub 3 2 2013265920 1 0) (machine [(2, 0)] []))
    (fun t => t.peek 1 3 = some 1) = true := by decide
/-- FM1. -/
theorem test_fmul : after (exec (.fmul 3 2 987654321 1 0) (machine [(2, 123456789)] []))
    (fun t => t.peek 1 3 = some 6500116) = true := by decide
/-- FM5. -/
theorem test_fmul_wraps : after (exec (.fmul 3 2 65536 1 0) (machine [(2, 65536)] []))
    (fun t => t.peek 1 3 = some 268435454) = true := by decide
/-- FD1. -/
theorem test_fdiv : after (exec (.fdiv 3 2 3 1 0) (machine [(2, 7)] []))
    (fun t => t.peek 1 3 = some 1342177283) = true := by decide
/-- FD5. -/
theorem test_fdiv_zero : raises (.fdiv 3 2 0 1 0) (machine [(2, 7)] []) .divZero := by decide
/-- EX1. -/
theorem test_fe4add : after (exec (.fe4add 24 16 20 1 1) (machine ([(16, 1), (17, 2), (18, 3), (19, 2013265920)] ++ run 20 5 4) []))
    (fun t => (List.range 4).map (fun i => t.peek 1 (24 + i)) = [some 6, some 8, some 10, some 7]) = true := by decide
/-- OV6: the fourth destination word is outside the domain, and nothing is written. -/
theorem test_fe4add_domain : raises (.fe4add 24 16 20 1 1) ({ machine (run 16 1 4 ++ run 20 5 4) [] with cfg := { Config.reference with dom1 := [(0, 27)] } }) .outOfDomain := by decide
/-- EX3. -/
theorem test_fe4sub : after (exec (.fe4sub 24 16 20 1 1) (machine (run 16 1 4 ++ [(20, 5), (21, 6), (22, 7), (23, 4)]) []))
    (fun t => (List.range 4).map (fun i => t.peek 1 (24 + i)) =
      [some 2013265917, some 2013265917, some 2013265917, some 0]) = true := by decide
/-- EX5. -/
theorem test_bbe4mul : after (exec (.bbe4mul 24 16 20 1 1) (machine (run 16 1 4 ++ run 20 5 4) []))
    (fun t => (List.range 4).map (fun i => t.peek 1 (24 + i)) = [some 676, some 588, some 386, some 60]) = true := by decide
/-- OV2. -/
theorem test_bbe4mul_overlap : after (exec (.bbe4mul 17 16 16 1 1) (machine (run 16 1 4) []))
    (fun t => (List.range 5).map (fun i => t.peek 1 (16 + i)) =
      [some 1, some 276, some 268, some 186, some 20]) = true := by decide
/-- EX14. -/
theorem test_bbe4inv : after (exec (.bbe4inv 24 16 0 1 0) (machine (run 16 1 4) []))
    (fun t => (List.range 4).map (fun i => t.peek 1 (24 + i)) =
      [some 1587469345, some 920666518, some 1160282443, some 647153706]) = true := by decide
/-- EX21. -/
theorem test_bbe4inv_zero : raises (.bbe4inv 24 16 0 1 0) (machine [(16, 0), (17, 0), (18, 0), (19, 0)] []) .invZero := by decide
/-- The stand-in of spec/95_test_vectors.md section 2.8 for the Poseidon2 permutation. -/
def rot16 (l : List Nat) : List Nat := (List.range 16).map fun i => l.getD ((i + 1) % 16) 0

/-- HX2: the output over the left input, with the stand-in permutation. -/
theorem test_compress_overlap : after (State.reset.commit
      ((machine [(1, 100), (2, 100), (3, 108)] (run 100 1 16)).compressWith rot16 1 2 3 1 2))
    (fun t => t.peek 2 100 = some 2 ∧ t.peek 2 107 = some 9 ∧ t.peek 2 108 = some 9 ∧ t.peek 2 115 = some 16) = true := by
  decide
/-- HX5. -/
theorem test_compress_immediate : raises (.compressPoseidon2 1 2 3 1 0)
    (machine [(1, 200), (2, 100), (3, 108)] (run 100 1 16)) .writeImm := by decide
/-- HX9: a partial overlap, with the stand-in permutation. -/
theorem test_permute_overlap : after (State.reset.commit
      ((machine [(1, 101), (3, 100)] (run 100 1 16)).permuteWith rot16 1 0 3 1 2))
    (fun t => t.peek 2 100 = some 1 ∧ t.peek 2 101 = some 2 ∧ t.peek 2 115 = some 16 ∧ t.peek 2 116 = some 1) = true := by
  decide
/-- HX10. -/
theorem test_permute_offset : raises (.permPoseidon2 1 4 3 1 2) (machine [(1, 300), (3, 100)] (run 100 1 16))
    .offsetUnsupported := by decide

/-- The machine of HX11 and HX12. -/
def keccakMachine (v : Nat) : State :=
  { machine [(1, 500), (3, 400)] [(400, 1), (401, 2), (402, v), (403, 65535)] with
    cfg := { Config.reference with keccakWidth := 4 } }

/-- HX11, with the stand-in `rev`. -/
theorem test_keccak : after (State.reset.commit ((keccakMachine 3).keccakWith List.reverse 1 0 3 1 2))
    (fun t => t.peek 2 500 = some 65535 ∧ t.peek 2 501 = some 3 ∧ t.peek 2 503 = some 1 ∧ t.peek 2 504 = none) = true := by
  decide
/-- HX12. -/
theorem test_keccak_range : raises (.permKeccak 1 0 3 1 2) (keccakMachine 65536) .keccakRange := by decide
/-- R155 with `KECCAK_WIDTH = 0`: `e = 0` faults though nothing is stored. -/
theorem test_keccak_no_words : raises (.permKeccak 1 0 3 1 0)
    { keccakMachine 3 with cfg := { Config.reference with keccakWidth := 0 } } .writeImm := by decide
/-- XF1. -/
theorem test_fail : raises (.fail 0 0 0 0 0) ({ machine [] [] with pc := 9 }) .fail := by decide
/-- XF2. -/
theorem test_printf : after (exec (.printf 5 0 0 1 0) (machine [(5, 15)] []))
    (fun t => t.printLog = [15] ∧ t.verifiable = false ∧ t.status = .running ∧ t.pc = 1) = true := by decide

/-! ### compose and decompose, spec/95_test_vectors.md section 2.1 -/

/-- Words that are no decomposition: elements beyond a limb, sums beyond `p`. -/
theorem test_compose : [[300, 1, 0, 0], [1, 0, 0, 120], [255, 255, 255, 255], [0, 0, 0, 121], [2013265920, 0, 0, 0],
    [0, 2013265920, 0, 0]].map (compose (machine4 [] []).cfg) =
    [556, 0, 268435453, 16777215, 2013265920, 2013265665] := by decide
theorem test_decompose : [0, 1, 255, 256, 556, 65536, 305419896, 2013265920].map (decompose (machine4 [] []).cfg) =
    [[0, 0, 0, 0], [1, 0, 0, 0], [255, 0, 0, 0], [0, 1, 0, 0], [44, 2, 0, 0], [0, 0, 1, 0], [120, 86, 52, 18],
      [0, 0, 0, 120]] := by decide
/-- The note-style pair. -/
theorem test_compose_firstElement :
    let c := { Config.reference with wordSize := 4, conversion := .firstElement }
    compose c [7, 9, 9, 9] = 7 ∧ decompose c 7 = [7, 0, 0, 0] := by decide

/-! ### Fetch, dispatch and launch -/

/-- The machine at `pc` of a program. -/
def atPc (c : Config) (program : List Tuple) (pc : Nat) : State :=
  { State.reset with cfg := c, program := program, pc := pc }

/-- The reference configuration with the Core opcodes alone. -/
def coreOnly : Config := { Config.reference with enabled := coreMnemonics }

/-- The reference configuration with instructions four addresses apart. -/
def wide : Config := { Config.reference with instWidth := 4 }

/-- DS3. -/
theorem test_step_unknown : after (step (atPc .reference [⟨23, 0, 0, 0, 0, 0⟩] 0))
    (fun t => t.report = some .opcodeUnknown ∧ t.pc = 0) = true := by decide
/-- DS5. -/
theorem test_step_disabled : after (step (atPc coreOnly [⟨16, 0, 0, 0, 0, 0⟩] 0))
    (fun t => t.report = some .opcodeDisabled) = true := by decide
/-- DS6, its first step: PRINTF is performed though not enabled. -/
theorem test_step_printf : after (step (atPc coreOnly [⟨22, 5, 0, 0, 0, 0⟩, ⟨21, 0, 0, 0, 0, 0⟩] 0))
    (fun t => t.printLog = [5] ∧ t.verifiable = false ∧ t.pc = 1) = true := by decide
/-- DS8, its second step. -/
theorem test_step_width : after (step (atPc wide [⟨4, 0, 0, 0, 0, 0⟩, ⟨5, 0, 0, 0, 0, 0⟩] 4))
    (fun t => t.status = .terminated ∧ t.pc = 4) = true := by decide
/-- DS10, its second step: `pc` between two instructions. -/
theorem test_step_misaligned : after (step (atPc wide (List.replicate 4 ⟨5, 0, 0, 0, 0, 0⟩) 14))
    (fun t => t.report = some .fetch ∧ t.pc = 14) = true := by decide

/-- A launch of the reference configuration with one TERMINATE. -/
def launch : Launch :=
  { cfg := .reference, program := [⟨5, 0, 0, 0, 0, 0⟩], regs := ⟨[], []⟩, mem := ⟨[], []⟩, inputs := [], pv := [] }

/-- The first condition of R193. -/
theorem admits_prime {l : Launch} (h : l.cfg.p.Prime) : l.admits .pNotPrime = true := decide_eq_true h

/-- A launch whose `p` is prime and whose other conditions of R193 hold is accepted. -/
theorem accepted_of_all {l : Launch} (hp : l.cfg.p = babyBear) (h : launchConditions.tail.all l.admits = true) :
    l.load = .next l.state := by
  have h1 := admits_prime (hp.symm ▸ babyBear_prime : l.cfg.p.Prime)
  have h2 : launchConditions.find? (fun q => !l.admits q) = none := by
    rw [show launchConditions = .pNotPrime :: launchConditions.tail from rfl, List.find?_cons]
    simpa [h1] using h
  rw [Launch.load, h2]

/-- The reference configuration with one TERMINATE is accepted. -/
theorem test_launch_accepted : launch.load = .next launch.state := accepted_of_all rfl (by decide)

/-- The refusal of a launch, whose `p` is prime. -/
theorem refused_of_find {l : Launch} {q : LaunchProblem} (hp : l.cfg.p = babyBear)
    (h : launchConditions.tail.find? (fun q => !l.admits q) = some q) : l.load = .refused (.badLaunch q) := by
  have h1 := admits_prime (hp.symm ▸ babyBear_prime : l.cfg.p.Prime)
  have h2 : launchConditions.find? (fun q => !l.admits q) = some q := by
    rw [show launchConditions = .pNotPrime :: launchConditions.tail from rfl, List.find?_cons]
    simpa [h1] using h
  rw [Launch.load, h2]

/-- The constant-zero map on a domain of two pieces is accepted (R35). -/
theorem test_launch_zero : Launch.load { launch with
      cfg := { Config.reference with dom1 := [(16, 32), (0, 16)] }, regs := ⟨[⟨0, 32, 0⟩], []⟩ } =
    .next (Launch.state { launch with
      cfg := { Config.reference with dom1 := [(16, 32), (0, 16)] }, regs := ⟨[⟨0, 32, 0⟩], []⟩ }) :=
  accepted_of_all rfl (by decide)
/-- R193 item 7: a map with values outside the domain is refused. -/
theorem test_launch_outside : Launch.load { launch with
      cfg := { Config.reference with dom1 := [(0, 16), (17, 32)] }, regs := ⟨[⟨0, 32, 0⟩], []⟩ } =
    .refused (.badLaunch .initialMemoryBad) := refused_of_find rfl (by decide)

/-- DS11. -/
theorem test_launch_range : Launch.load { launch with program := [⟨5, 2013265921, 0, 0, 0, 0⟩] } =
    .refused (.badLaunch .programElementOutOfRange) := refused_of_find rfl (by decide)
/-- DS12. -/
theorem test_launch_opc : Launch.load { launch with cfg := { Config.reference with
      opc := #v[0, 1, 2, 3, 4, 5, 6, 7, 8, 9, 10, 10, 12, 13, 14, 15, 16, 17, 18, 19, 20, 21, 22] } } =
    .refused (.badLaunch .opcNotInjective) := refused_of_find rfl (by decide)
/-- DS13, `ENABLED` containing PRINTF. -/
theorem test_launch_printf : Launch.load { launch with cfg := { Config.reference with enabled := Mnemonic.all } } =
    .refused (.badLaunch .excludedEnabled) := refused_of_find rfl (by decide)
/-- DS13, `ENABLED` lacking BEQ. -/
theorem test_launch_core : Launch.load { launch with cfg := { Config.reference with
      enabled := coreMnemonics.filter fun m => m != .beq } } =
    .refused (.badLaunch .coreNotEnabled) := refused_of_find rfl (by decide)

/-! ### Witnesses: a state and operands that meet the hypotheses of each statement, clause by clause -/

theorem witness_DecodeOfEncode :
    Config.reference.OpcOk ∧ Instr.wellFormed Config.reference.p (.storew 0 2013265920 1 0 2013265920) = true := by decide

theorem witness_EncodeOfDecode :
    decode .reference ⟨22, 2013265920, 0, 0, 1, 0⟩ = .ok (.printf 2013265920 0 0 1 0) := by decide

/-- A known opcode, the last and the one after it; and an element that is `p`. -/
theorem witness_DecodeRejectsExactlyUnknownOpcodes :
    Config.reference.opcodeOf .printf = 22 ∧ (∀ m ∈ Mnemonic.all, Config.reference.opcodeOf m ≠ 23) ∧
      23 < Config.reference.p ∧ Config.reference.p ≤ 2013265921 := by decide

/-- `-1` and `-(p - 1)`, back to address 0. -/
theorem witness_AssemblyNamesTheInstruction :
    assemble babyBear "SW" 5 (-1) 0 2013265920 2 = some (.storew 5 2013265920 0 2013265920 2) ∧
      asmOperand babyBear (-2013265920) = some 1 ∧ asmOperand babyBear (-2013265921) = none ∧
      feAdd babyBear 1 2013265920 = 0 := by decide

/-- Words of one element; words of four, the largest element, and a word that is no decomposition. -/
theorem witness_DefaultPairComposes :
    (Config.reference.wordSize = 1 ∧ 2013265920 < Config.reference.p) ∧
      (machine4 [] []).cfg.conversion = .limbs 8 ∧ 1 < (machine4 [] []).cfg.wordSize ∧ 2013265920 < (machine4 [] []).cfg.p ∧
      [300, 2013265920, 0, 0].length = (machine4 [] []).cfg.wordSize ∧
      feBits (machine4 [] []).cfg.p ≤ (machine4 [] []).cfg.wordSize * 8 := by decide

theorem witness_ImmediateReadsItself :
    1 ≤ (machine4 [] []).cfg.wordSize ∧ conversionAdmitted (machine4 [] []).cfg = true ∧
      2013265920 < (machine4 [] []).cfg.p := by decide

/-- `ReadFe` of a word that is no decomposition, and of a fault; then each clause of R46: the spaces 0, 3 and 4; addresses 6 and `p - 1` of words of 4; a word with its last element
missing; a word outside the domain; a whole word, the last of the space. -/
theorem witness_ReadWordChecks :
    ((machine4 [(4, 300), (5, 1), (6, 0), (7, 0)] []).readWord 1 4 = .ok [300, 1, 0, 0] ∧
      (machine4 [(4, 300), (5, 1), (6, 0), (7, 0)] []).readFe 1 4 = .ok 556) ∧
      (machine4 [] []).readFe 2 8 = .error .uninitRead ∧
    (machine4 [] []).readWord 0 6 = .ok [6, 0, 0, 0] ∧ (machine4 [] []).readWord 3 0 = .error .asReserved ∧
      (machine4 [] []).readWord 4 0 = .error .asInvalid ∧ (machine4 [] []).readWord 1 6 = .error .misaligned ∧
      (machine4 [] []).readWord 2 2013265920 = .error .outOfDomain ∧
      (machine4 [(4, 1), (5, 2), (6, 3)] []).readWord 1 4 = .error .uninitRead ∧
      State.readWord { machine4 [] [] with cfg := { wide with wordSize := 4, dom1 := [(0, 4)] } } 1 4 =
        .error .outOfDomain ∧
      (machine4 [] (run 2013265916 7 4)).readWord 2 2013265916 = .ok [7, 8, 9, 10] := by decide

/-- Each clause of R47, as for R46. -/
theorem witness_WriteWordChecks :
    (machine4 [] []).writeWord 0 0 [1, 2, 3, 4] = .error .writeImm ∧
      (machine4 [] []).writeWord 3 0 [1, 2, 3, 4] = .error .asReserved ∧
      (machine4 [] []).writeWord 4 0 [1, 2, 3, 4] = .error .asInvalid ∧
      (machine4 [] []).writeWord 1 6 [1, 2, 3, 4] = .error .misaligned ∧
      (machine4 [] []).writeWord 2 2013265920 [1, 2, 3, 4] = .error .outOfDomain ∧
      State.writeWord { machine4 [] [] with cfg := { wide with wordSize := 4, dom1 := [(0, 7)] } } 1 4 [1, 2, 3, 4] =
        .error .outOfDomain ∧
      (machine4 [] []).writeWord 2 2013265916 [1, 2, 3, 4] = .ok (machine4 [] (run 2013265916 1 4)) := by decide

theorem witness_ReadAfterWrite :
    ((machine4 [] []).space 1).wf ∧ [1, 2, 3, 4].length = (machine4 [] []).cfg.wordSize ∧
      (machine4 [] []).writeWord 1 4 [1, 2, 3, 4] = .ok (machine4 (run 4 1 4) []) := by decide

/-- Two histories of writes, one contents: the cell at 5 is set back to the background. -/
theorem witness_EqualReadsEqualMemory :
    let m : Memory := (((⟨[⟨0, 8, 0⟩], []⟩ : Memory).write 3 7).write 5 1).write 5 0
    let m' : Memory := (⟨[⟨0, 8, 0⟩], []⟩ : Memory).write 3 7
    m.wf ∧ m'.wf ∧ m.background = m'.background ∧ m = m' := by decide

theorem witness_StepRunsTheDecodedInstruction :
    let s := atPc wide [⟨4, 0, 0, 0, 0, 0⟩, ⟨5, 0, 0, 0, 0, 0⟩] 4
    s.status = .running ∧ 1 ≤ s.cfg.instWidth ∧ s.pc = 1 * s.cfg.instWidth ∧ s.program[1]? = some ⟨5, 0, 0, 0, 0, 0⟩ ∧
      decode s.cfg ⟨5, 0, 0, 0, 0, 0⟩ = .ok (.terminate 0 0 0 0 0) ∧ Mnemonic.terminate ∈ s.cfg.enabled := by decide

/-- Between two instructions, at the end of the program, and at its last instruction. -/
theorem witness_FetchFollowsProgramCounter :
    let s := atPc wide [⟨4, 0, 0, 0, 0, 0⟩, ⟨5, 0, 0, 0, 0, 0⟩]
    (s 3).pc % (s 3).cfg.instWidth ≠ 0 ∧ (s 3).status = .running ∧
      (s 8).pc % (s 8).cfg.instWidth = 0 ∧ (s 8).program.length ≤ (s 8).pc / (s 8).cfg.instWidth ∧
      (s 4).pc / (s 4).cfg.instWidth < (s 4).program.length ∧ fetchTuple (s 4) = .ok ⟨5, 0, 0, 0, 0, 0⟩ := by decide

/-- The opcode 23, a disabled one, an excluded one and an enabled one. -/
theorem witness_DispatchFollowsEnabled :
    let s := fun o => atPc coreOnly [⟨o, 0, 0, 0, 0, 0⟩] 0
    (∀ o ∈ [23, 16, 22, 5], (s o).status = .running ∧ fetchTuple (s o) = .ok ⟨o, 0, 0, 0, 0, 0⟩ ∧
      Tuple.wellFormed (s o).cfg.p ⟨o, 0, 0, 0, 0, 0⟩ = true) ∧ coreOnly.OpcOk ∧
      (∀ m ∈ Mnemonic.all, coreOnly.opcodeOf m ≠ 23) ∧ coreOnly.opcodeOf .bbe4mul = 16 ∧
      Mnemonic.bbe4mul ∉ coreOnly.enabled ∧ coreOnly.opcodeOf .printf = 22 ∧ coreOnly.opcodeOf .terminate = 5 ∧
      Mnemonic.terminate ∈ coreOnly.enabled := by decide

theorem witness_EndedRunTakesNoStep : ({ State.reset with status := .terminated } : State).status ≠ .running := by decide

/-- A step that fails. -/
theorem witness_FaultsArePrecise :
    step State.reset = .next { State.reset with status := .failed, report := some .fetch } := rfl

/-- A step from a state with every value in range. -/
theorem witness_StepKeepsEveryValueInRange :
    (atPc .reference [⟨5, 0, 0, 0, 0, 0⟩] 0).Wf ∧
      step (atPc .reference [⟨5, 0, 0, 0, 0, 0⟩] 0) =
        .next { atPc .reference [⟨5, 0, 0, 0, 0, 0⟩] 0 with status := .terminated } :=
  ⟨⟨by decide, by decide, fitsSpace_iff.1 (by decide), fitsSpace_iff.1 (by decide), by decide, by decide, by decide,
    by decide⟩, rfl⟩

/-- A launch with a background, and its last and first addresses. -/
theorem witness_AcceptedLaunchHasEveryValueInRange :
    let l : Launch := { launch with regs := ⟨[⟨0, 2013265921, 7⟩], []⟩ }
    l.load = .next l.state ∧ l.state.peek 1 2013265920 = some 7 ∧ l.state.peek 1 2013265921 = none :=
  ⟨accepted_of_all rfl (by decide), by decide, by decide⟩

/-- The same step, for the statements about what a step leaves alone and about acceptance. -/
theorem witness_StepKeepsTheLaunchParameters :
    step (atPc .reference [⟨5, 0, 0, 0, 0, 0⟩] 0) =
      .next { atPc .reference [⟨5, 0, 0, 0, 0, 0⟩] 0 with status := .terminated } := rfl

/-- An instruction of each clause: one that ends the run, JAL, BEQ and another. -/
theorem witness_StepSetsTheProgramCounter :
    let s := machine [] []
    s.status = .running ∧
      becomes (exec (.fail 0 0 0 0 0) s) { s with status := .failed, report := some .fail } ∧
      after (exec (.jal 1 2013265920 0 1 0) s) (fun t => t.status = .running ∧ t.pc = 2013265920) = true ∧
      becomes (exec (.beq 0 0 7 0 0) s) { s with pc := 7 } ∧ becomes (exec (.bne 0 0 7 0 0) s) { s with pc := 1 } := by decide

/-- PRINTF printing, PRINTF faulting, HINT_INPUT taking an input, HINT_INPUT faulting. -/
theorem witness_OnlyPrintfPrintsAndOnlyHintInputTakesInputs :
    becomes (exec (.printf 5 0 0 0 0) (machine [] []))
        { machine [] [] with printLog := [5], verifiable := false, pc := 1 } ∧
      raises (.printf 5 0 0 1 0) (machine [] []) .uninitRead ∧
      becomes (exec (.hintInput 0 0 0 0 0) { machine [] [] with inputs := [[]] }) { machine [] [] with pc := 1 } ∧
      raises (.hintInput 0 0 0 0 0) (machine [] []) .noInput := by decide

theorem witness_OnlyTerminateAccepts :
    after (step (atPc .reference [⟨5, 0, 0, 0, 0, 0⟩] 0)) (fun t => t.status = .terminated) = true := by decide

theorem witness_PhantomInstructionsWriteNoMemory :
    (Instr.hintBits 5 0 0 0 0).mnemonic = .hintBits ∧
      after (exec (.hintBits 5 0 0 0 0) (machine [] [])) (fun t => t.hintStream.length = 31) = true ∧
      raises (.hintBits 5 0 0 1 0) (machine [] []) .uninitRead ∧
      raises (.hintInput 0 0 0 0 0) (machine [] []) .noInput := by decide

/-- One instruction of each list. -/
theorem witness_DestinationInImmediatesFaults :
    (Instr.jal 1 2 3 0 4) ∈ [Instr.jal 1 2 3 0 4] ∧ raises (.jal 1 2 3 0 4) (machine [] []) .writeImm ∧
      raises (.storew 1 2 3 0 0) (machine [] []) .writeImm := by decide

/-- A launch of each outcome: TERMINATE; FAIL; PRINTF and TERMINATE; JAL with offset 0, whose scratch register already
holds the address it links. -/
theorem witness_OutcomeOfTheRun :
    let l := fun p : List Tuple => { launch with program := p, regs := ⟨[], [(1, 1)]⟩ }
    (l [⟨5, 0, 0, 0, 0, 0⟩]).HasOutcome .accepted ∧ (l [⟨21, 0, 0, 0, 0, 0⟩]).HasOutcome .rejected ∧
      (l [⟨22, 1, 0, 0, 1, 0⟩, ⟨5, 0, 0, 0, 0, 0⟩]).HasOutcome .unverifiable ∧
      (l [⟨2, 1, 0, 0, 1, 0⟩]).HasOutcome .noOutcome :=
  ⟨⟨_, accepted_of_all rfl (by decide), 1, _, rfl, rfl⟩, ⟨_, accepted_of_all rfl (by decide), 1, _, rfl, rfl⟩,
    ⟨_, accepted_of_all rfl (by decide), 2, _, rfl, rfl⟩,
    ⟨_, accepted_of_all rfl (by decide), fun n => ⟨_, State.runFor_of_step_self rfl n, rfl⟩⟩⟩

theorem witness_LaunchState :
    inDomain launch.cfg 1 0 = true ∧ inDomain launch.cfg 2 2013265920 = true ∧ launch.state.peek 1 0 = none ∧
      launch.state.peek 2 2013265920 = none := by decide

/-- A launch that meets every condition, and one that does not. -/
theorem witness_LaunchRefusesExactlyTheIllFormed :
    launch.load = .next launch.state ∧
      Launch.load { launch with program := [⟨5, 2013265921, 0, 0, 0, 0⟩] } =
        .refused (.badLaunch .programElementOutOfRange) := ⟨test_launch_accepted, test_launch_range⟩

/-- The four clauses: it loads; the base has no value; the word has none; the destination is an immediate. -/
theorem witness_LoadwLoadsAWord :
    let s := machine [(4, 100)] [(99, 77)]
    (s.readFe 1 4 = .ok 100 ∧ s.readWord 2 ((100 + 2013265920) % s.cfg.p) = .ok [77] ∧ writeFault s.cfg 1 8 = none ∧
      (s.space 1).wf) ∧
      s.readFe 1 5 = .error .uninitRead ∧ s.readWord 2 ((100 + 0) % s.cfg.p) = .error .uninitRead ∧
      (s.readFe 0 100 = .ok 100 ∧ writeFault s.cfg 0 8 = some .writeImm) := by decide

/-- The four clauses, the first at the last address of the space. -/
theorem witness_StorewStoresAWord :
    let s := machine [(4, 100), (8, 77)] []
    (s.readFe 1 4 = .ok 100 ∧ s.readWord 1 8 = .ok [77] ∧
      writeFault s.cfg 2 ((100 + 2013265820) % s.cfg.p) = none ∧ (s.space 2).wf) ∧
      s.readFe 1 5 = .error .uninitRead ∧ s.readWord 1 9 = .error .uninitRead ∧
      writeFault s.cfg 3 ((100 + 0) % s.cfg.p) = some .asReserved := by decide

theorem witness_JalLinksAndJumps :
    writeFault (machine [] []).cfg 1 2013265920 = none ∧ ((machine [] []).space 1).wf ∧
      writeFault (machine [] []).cfg 0 1 = some .writeImm := by decide

/-- Equal words, different words, and a fault of each read: for BEQ and BNE. -/
theorem witness_Branches :
    let s := machine [(2, 9)] []
    s.readWord 1 2 = .ok [9] ∧ s.readWord 0 9 = .ok [9] ∧ s.readWord 0 8 = .ok [8] ∧
      s.readWord 1 3 = .error .uninitRead := by decide

/-- It stores; the pointer has no value; the stream is empty; the write faults. -/
theorem witness_ShintwStoresTheNextHint :
    let s := { machine [(4, 100)] [] with hintStream := [[42], [7]] }
    (s.readFe 1 4 = .ok 100 ∧ s.hintStream = [42] :: [[7]] ∧ [42].length = s.cfg.wordSize ∧
      writeFault s.cfg 2 ((100 + 2) % s.cfg.p) = none ∧ (s.space 2).wf) ∧
      s.readFe 1 5 = .error .uninitRead ∧ (machine [(4, 100)] []).hintStream = [] ∧
      writeFault s.cfg 0 ((100 + 2) % s.cfg.p) = some .writeImm := by decide

/-- The last index and the one past it, the public value and another, and a fault of each read. -/
theorem witness_PublishChecksAPublicValue :
    let s := { machine [(5, 15)] [] with pv := [15, 0], cfg := { Config.reference with numPublicValues := 2 } }
    s.readFe 0 0 = .ok 0 ∧ s.readFe 0 1 = .ok 1 ∧ s.readFe 0 2 = .ok 2 ∧ s.cfg.numPublicValues ≤ 2 ∧
      1 < s.cfg.numPublicValues ∧ s.pv[0]? = some 15 ∧ s.pv[1]? = some 0 ∧ s.readFe 1 5 = .ok 15 ∧
      s.readFe 1 6 = .error .uninitRead := by decide

theorem witness_HintInputTakesTheNextInput :
    ({ machine [] [] with inputs := [[[3]], []] } : State).inputs = [[3]] :: [[]] ∧ (machine [] []).inputs = [] := by
  decide

theorem witness_HintBitsGivesTheBits :
    (machine [(6, 2013265920)] []).readFe 1 6 = .ok 2013265920 ∧
      (machine [] []).readFe 1 6 = .error .uninitRead := by decide

theorem witness_HintBitsDetermineTheValue : 2013265920 < 2 ^ 31 := by decide

/-- Both sources readable and the destination writable; and a fault of each access: for FADD, FSUB, FMUL and FDIV. -/
theorem witness_FieldAddSubMul :
    let s := machine [(2, 2013265920)] []
    0 < s.cfg.p ∧ s.readFe 1 2 = .ok 2013265920 ∧ s.readFe 0 5 = .ok 5 ∧ writeFault s.cfg 1 3 = none ∧ (s.space 1).wf ∧
      s.readFe 1 9 = .error .uninitRead ∧ s.readFe 3 0 = .error .asReserved ∧
      (s.readFe 0 2 = .ok 2 ∧ writeFault s.cfg 0 3 = some .writeImm) := by decide

/-- FDIV besides: `p` is prime; a nonzero and a zero divisor. -/
theorem witness_FdivDividesInTheField :
    (machine [(2, 7)] []).cfg.p.Prime ∧ (machine [(2, 7)] []).readFe 0 2013265920 = .ok 2013265920 ∧
      (machine [(2, 7)] []).readFe 0 0 = .ok 0 := ⟨babyBear_prime, by decide, by decide⟩

theorem witness_InverseIsTheOnlyInverse : babyBear.Prime ∧ 7 < babyBear ∧ 0 < 2013265920 ∧ 2013265920 < babyBear :=
  ⟨babyBear_prime, by decide, by decide, by decide⟩

/-- The words of a multi-word operand read one by one, as the reads of the instruction make them. -/
theorem readsFes_of {s : State} {as q n : Nat} {vs : List Nat} (h : s.readFes as q n = .ok vs) : s.ReadsFes as q vs := by
  have h' := mapOk_range_eq_ok_iff.1 h
  intro i x hx
  exact h'.2 i (h'.1 ▸ (List.getElem?_eq_some_iff.1 hx).1) x hx

/-- The first failing word of a multi-word operand. -/
theorem readFaults_of {s : State} {as q n : Nat} {f : FaultName} {k : Nat} {vs : List Nat} (hk : k < n)
    (h : s.readFes as q k = .ok vs) (hf : s.readFe as (wordAddr s.cfg q k) = .error f) : s.ReadFaults as q n f := by
  have h' := mapOk_range_eq_ok_iff.1 h
  exact ⟨k, hk, fun i hi => ⟨_, h'.2 i hi _ (List.getElem?_eq_getElem (h'.1.symm ▸ hi))⟩, hf⟩

/-- The extension machine: two elements, and a domain that ends inside the third. -/
def extMachine : State :=
  { machine (run 16 1 8) [] with cfg := { Config.reference with dom1 := [(0, 27), (30, 40)] } }

/-- Both sources readable and four words writable; the fourth word of a source without a value; the fourth destination
word outside the domain: for FE4ADD, FE4SUB and BBE4MUL. -/
theorem witness_Extension :
    (0 < extMachine.cfg.p ∧ extMachine.ReadsFes 1 16 [1, 2, 3, 4] ∧ extMachine.ReadsFes 1 20 [5, 6, 7, 8] ∧
      Writable extMachine.cfg 1 30 4 ∧ (extMachine.space 1).wf) ∧
      extMachine.ReadFaults 1 21 4 .uninitRead ∧ WriteFaults extMachine.cfg 1 24 4 .outOfDomain :=
  ⟨⟨by decide, readsFes_of (n := 4) (by decide), readsFes_of (n := 4) (by decide), by decide, by decide⟩,
    readFaults_of (k := 3) (vs := [6, 7, 8]) (by decide) (by decide) (by decide), 3, by decide, by decide, by decide⟩

/-- BBE4INV besides: the field, a nonzero element and zero. -/
theorem witness_ExtensionInvert :
    extMachine.cfg.p = babyBear ∧ (⟨1, 2, 3, 4⟩ : Machine.Ext) ≠ ⟨0, 0, 0, 0⟩ ∧
      (machine [(16, 0), (17, 0), (18, 0), (19, 0)] []).ReadsFes 1 16 [0, 0, 0, 0] :=
  ⟨rfl, by decide, readsFes_of (n := 4) (by decide)⟩

/-- A coefficient at the end of the range, with an inverse; and zero, which has none. -/
theorem witness_ExtensionInverseIsUnique :
    2013265920 < babyBear ∧ extInv babyBear ⟨2013265920, 0, 0, 0⟩ = some ⟨2013265920, 0, 0, 0⟩ ∧
      extInv babyBear ⟨0, 0, 0, 0⟩ = none := by decide

theorem witness_ExtensionProductLaws : 1 < babyBear ∧ 2013265920 < babyBear := by decide

/-- The machine of HX1: pointers in registers 1 to 3, sixteen elements in memory. -/
def hashMachine : State := machine [(1, 200), (2, 100), (3, 108), (4, 2013265913)] (run 100 1 16)

/-- It compresses; a fault of each pointer read, of the data reads and of the writes. -/
theorem witness_CompressStoresHalfTheState :
    (hashMachine.readFe 1 1 = .ok 200 ∧ hashMachine.readFe 1 2 = .ok 100 ∧ hashMachine.readFe 1 3 = .ok 108 ∧
      hashMachine.ReadsFes 2 100 [1, 2, 3, 4, 5, 6, 7, 8] ∧ hashMachine.ReadsFes 2 108 [9, 10, 11, 12, 13, 14, 15, 16] ∧
      Writable hashMachine.cfg 2 200 8 ∧ (hashMachine.space 2).wf) ∧
      WriteFaults hashMachine.cfg 0 200 8 .writeImm ∧ hashMachine.ReadFaults 2 109 8 .uninitRead ∧
      hashMachine.readFe 1 5 = .error .uninitRead :=
  ⟨⟨by decide, by decide, by decide, readsFes_of (n := 8) (by decide), readsFes_of (n := 8) (by decide), by decide,
    by decide⟩, ⟨0, by decide, by decide, by decide⟩,
    readFaults_of (k := 7) (vs := [10, 11, 12, 13, 14, 15, 16]) (by decide) (by decide) (by decide), by decide⟩

/-- It permutes, to the last eight addresses and the first eight; a nonzero offset; a fault of the data reads. -/
theorem witness_PermuteStoresTheState :
    (hashMachine.readFe 1 4 = .ok 2013265913 ∧ hashMachine.readFe 1 2 = .ok 100 ∧
      hashMachine.ReadsFes 2 100 [1, 2, 3, 4, 5, 6, 7, 8, 9, 10, 11, 12, 13, 14, 15, 16] ∧
      Writable hashMachine.cfg 2 2013265913 16 ∧ (hashMachine.space 2).wf) ∧
      (4 : Nat) ≠ 0 ∧ WriteFaults hashMachine.cfg 3 200 16 .asReserved ∧
      hashMachine.ReadFaults 2 101 16 .uninitRead ∧ hashMachine.readFe 1 5 = .error .uninitRead :=
  ⟨⟨by decide, by decide, readsFes_of (n := 16) (by decide), by decide, by decide⟩, by decide,
    ⟨0, by decide, by decide, by decide⟩,
    readFaults_of (k := 15) (vs := [2, 3, 4, 5, 6, 7, 8, 9, 10, 11, 12, 13, 14, 15, 16]) (by decide) (by decide)
      (by decide), by decide⟩

/-- Both instructions complete on the same sixteen elements. -/
theorem witness_CompressIsTheFirstHalfOfPermute :
    (1 < hashMachine.cfg.p ∧ 16 * hashMachine.cfg.wordSize ≤ hashMachine.cfg.p ∧ (hashMachine.space 2).wf ∧
      hashMachine.readFe 1 1 = .ok 200 ∧ hashMachine.readFe 1 2 = .ok 100 ∧
      hashMachine.readFe 1 3 = .ok (wordAddr hashMachine.cfg 100 8)) ∧
      (∃ t, exec (.compressPoseidon2 1 2 3 1 2) hashMachine = .next t ∧ t.status = .running) ∧
      ∃ u, exec (.permPoseidon2 1 0 2 1 2) hashMachine = .next u ∧ u.status = .running :=
  ⟨by decide, ⟨_, rfl, rfl⟩, ⟨_, rfl, rfl⟩⟩

/-- It permutes four values, the largest `2^16 - 1`; a word size of 4; a nonzero offset; an element of `2^16`; an
element without a value; a fault of a pointer read and of a write; no values to permute. -/
theorem witness_KeccakStoresTheState :
    let s := keccakMachine 3
    (s.cfg.wordSize = 1 ∧ s.readWord 1 1 = .ok [500] ∧ s.readWord 1 3 = .ok [400] ∧ [1, 2, 3, 65535].length = s.cfg.keccakWidth ∧
      (∀ k < 4, ∀ v ∈ [1, 2, 3, 65535][k]?, v < 2 ^ 16 ∧ s.readWord 2 ((400 + k) % s.cfg.p) = .ok [v]) ∧
      Writable s.cfg 2 500 s.cfg.keccakWidth ∧ (s.space 2).wf) ∧
      (machine4 [] []).cfg.wordSize ≠ 1 ∧ (1 : Nat) ≠ 0 ∧
      ((keccakMachine 65536).readWord 2 ((400 + 2) % s.cfg.p) = .ok [65536] ∧ 2 ^ 16 ≤ 65536) ∧
      s.readWord 2 ((404 + 0) % s.cfg.p) = .error .uninitRead ∧ s.readWord 1 2 = .error .uninitRead ∧
      writeFault s.cfg 0 (wordAddr s.cfg 500 0) = some .writeImm ∧
      (s.readWord 0 ((400 + 3) % s.cfg.p) = .ok [403] ∧ ([] : List Nat).length = { s.cfg with keccakWidth := 0 }.keccakWidth) := by
  decide

theorem witness_PrintfPrintsAndSpoils :
    (machine [(5, 15)] []).readFe 1 5 = .ok 15 ∧ (machine [] []).readFe 1 5 = .error .uninitRead := by decide

/-- The last register, a register to copy and one that holds 0. -/
theorem witness_IdiomsDoWhatTheyAreFor :
    let s := machine [(2, 9), (3, 0)] []
    1 ≤ s.cfg.wordSize ∧ conversionAdmitted s.cfg = true ∧ s.regs.wf ∧ 1 < s.cfg.p ∧ 2013265920 < s.cfg.p ∧
      writeFault s.cfg 1 2013265920 = none ∧ s.readFe 1 2 = .ok 9 ∧ s.readFe 1 3 = .ok 0 := by decide

end Sys2Proof.Tests
end

section
/-! PROOFS of the statements about the step as a whole (spec/00_scope.md R7, R17): a step runs the decoded
instruction, every instruction answers a next state, and every step keeps every value in range.

The invariant is `State.Wf`. It is carried through an instruction in three layers: what a raised fault, a new `pc` and
a checked write keep; what each meaning keeps, as the effect of its last write; and the step, which is a meaning or a
fault of fetch or dispatch. -/

namespace Sys2Proof.Machine

variable {s t : State}

/-! ### The step runs the decoded instruction -/

/-- The machine performs the Excluded opcodes and the enabled ones (R80, R160). -/
theorem runnable_iff {c : Config} {m : Mnemonic} :
    runnable c m = true ↔ m = .fail ∨ m = .printf ∨ m ∈ c.enabled := by
  simp [runnable, or_assoc]

/-- A `pc` that is a multiple of INST_WIDTH fetches the group at its index (R81). -/
theorem fetchTuple_of_pc_eq {k : Nat} {u : Tuple} (hw : 1 ≤ s.cfg.instWidth) (hpc : s.pc = k * s.cfg.instWidth)
    (hu : s.program[k]? = some u) : fetchTuple s = .ok u := by
  rw [fetchTuple_eq_ok_iff, hpc, Nat.mul_div_cancel k hw]
  exact ⟨Nat.mul_mod_left k _, hu⟩

/-- Settles O15. -/
theorem stepRunsTheDecodedInstruction : Obligations.StepRunsTheDecodedInstruction := by
  intro s k u i hs hw hpc hu hd hm
  have hf : fetchTuple s = .ok u := fetchTuple_of_pc_eq hw hpc hu
  exact step_of_nextInstr (nextInstr_eq_ok_iff.2 ⟨hs, u, hf, hd, runnable_iff.2 hm⟩)

/-! ### Every instruction answers a next state -/

/-- What ends in `commit` answers a next state, whatever its result (R170). -/
theorem State.commit_isNext (s : State) (r : Except FaultName State) : ∃ t, s.commit r = .next t := by
  cases r with
  | ok t => exact ⟨t, rfl⟩
  | error n => exact ⟨s.raise n, rfl⟩

/-- Settles O19: TERMINATE and FAIL name their next state, and every other meaning ends in `commit`. -/
theorem everyInstructionAnswersNext : Obligations.EveryInstructionAnswersNext := by
  intro i s
  cases i with
  | terminate | fail => exact ⟨_, rfl⟩
  | loadw | storew | jal | beq | bne | shintw | publish | hintInput | hintBits | fadd | fsub | fmul | fdiv
  | fe4add | fe4sub | bbe4mul | bbe4inv | compressPoseidon2 | permPoseidon2 | permKeccak | printf =>
    exact s.commit_isNext _

/-! ### What the shared operations keep in range -/

theorem State.Wf.p_pos (h : s.Wf) : 0 < s.cfg.p := Nat.zero_lt_of_lt h.p_gt_one

theorem State.Wf.raise (h : s.Wf) (n : FaultName) : (s.raise n).Wf :=
  { h with report_iff := by simp }

theorem State.Wf.jumpBy (h : s.Wf) (offset : Nat) : (s.jumpBy offset).Wf :=
  { h with pc_lt := feAdd_lt h.p_pos _ _ }

theorem State.Wf.advance (h : s.Wf) : s.advance.Wf := h.jumpBy s.cfg.instWidth

theorem State.Wf.setHintStream (h : s.Wf) {ws : List Word} (hws : ∀ w ∈ ws, IsWord s.cfg w) :
    State.Wf { s with hintStream := ws } :=
  { h with hints_fit := hws }

/-- A meaning that ends in `commit` keeps every value in range when its own effect does (R170). -/
theorem State.Wf.commit (h : s.Wf) {r : Except FaultName State} (hr : ∀ u, r = .ok u → u.Wf)
    (ht : s.commit r = .next t) : t.Wf := by
  rcases State.commit_eq_next ht with hok | ⟨n, -, rfl⟩
  · exact hr t hok
  · exact h.raise n

theorem State.Wf.writeWord (h : s.Wf) {as ptr : Nat} {w : Word} (hw : IsWord s.cfg w)
    (ht : s.writeWord as ptr w = .ok t) : t.Wf := by
  obtain ⟨hf, rfl⟩ := State.writeWord_eq_ok_iff.1 ht
  exact h.putWord hf hw

theorem State.Wf.writeFe (h : s.Wf) {as ptr v : Nat} (hv : v < s.cfg.p) (ht : s.writeFe as ptr v = .ok t) : t.Wf :=
  h.writeWord (decompose_isWord hv) ht

theorem State.Wf.writeFes (h : s.Wf) {as q : Nat} {vs : List Nat} (hvs : ∀ v ∈ vs, v < s.cfg.p)
    (ht : s.writeFes as q vs = .ok t) : t.Wf := by
  refine h.writeWordsFrom (fun w hw => ?_) ht
  obtain ⟨v, hv, rfl⟩ := List.mem_map.1 hw
  exact decompose_isWord (hvs v hv)

theorem State.Wf.writeExt (h : s.Wf) {as ptr : Nat} {x : Ext} (hx : ∀ v ∈ x.toList, v < s.cfg.p)
    (ht : s.writeExt as ptr x = .ok t) : t.Wf := h.writeFes hx ht

theorem State.Wf.writeDest (h : s.Wf) {as q : Nat} {ws : List Word} (hws : ∀ w ∈ ws, IsWord s.cfg w)
    (ht : s.writeDest as q ws = .ok t) : t.Wf :=
  h.writeWordsFrom hws (State.writeDest_eq_ok_iff.1 ht).2

/-- A base plus offset address is an element of F (R41). -/
theorem State.basePlusOffset_lt (h : s.Wf) {d ptr offset addr : Nat}
    (ha : s.basePlusOffset d ptr offset = .ok addr) : addr < s.cfg.p := by
  unfold State.basePlusOffset at ha
  split at ha
  · cases ha
  · cases ha; exact feAdd_lt h.p_pos _ _

/-! ### Results of the extension field and of the permutations are elements of F -/

section Results

variable {p : Nat}

theorem extAdd_lt (hp : 0 < p) (x y : Ext) : ∀ v ∈ (extAdd p x y).toList, v < p := by
  simp [Ext.toList, extAdd, feAdd_lt hp]

theorem extSub_lt (hp : 0 < p) (x y : Ext) : ∀ v ∈ (extSub p x y).toList, v < p := by
  simp [Ext.toList, extSub, feSub_lt hp]

theorem extMul_lt (hp : 0 < p) (x y : Ext) : ∀ v ∈ (extMul p x y).toList, v < p := by
  simp [Ext.toList, extMul, toFe_lt hp]

theorem extInv_lt (hp : 0 < p) {x y : Ext} (h : extInv p x = some y) : ∀ v ∈ y.toList, v < p := by
  unfold extInv at h
  split at h
  · cases h
  · cases h; simp [Ext.toList, toFe_lt hp]

theorem poseidon2Perm_lt (hp : 0 < p) (l : List Nat) : ∀ v ∈ poseidon2Perm p l, v < p := by
  simp [poseidon2Perm, Nat.mod_lt _ hp]

end Results

/-! ### What each meaning keeps in range -/

variable {a b c d e : Nat}

theorem execLoadw_keeps_wf (h : s.Wf) (ht : execLoadw a b c d e s = .next t) : t.Wf := by
  refine h.commit (fun u hu => ?_) ht
  simp only [bind_eq_ok] at hu
  obtain ⟨addr, haddr, w, hw, v, hv, hu⟩ := hu
  cases hu
  exact (h.writeWord (State.readWord_isWord (State.basePlusOffset_lt h haddr) h hw) hv).advance

/-- The one meaning that stores what an operand itself holds, in space 0: the operand must be an element of F (R72). -/
theorem execStorew_keeps_wf (h : s.Wf) (ha : a < s.cfg.p) (ht : execStorew a b c d e s = .next t) : t.Wf := by
  refine h.commit (fun u hu => ?_) ht
  simp only [bind_eq_ok] at hu
  obtain ⟨addr, -, w, hw, v, hv, hu⟩ := hu
  cases hu
  exact (h.writeWord (State.readWord_isWord ha h hw) hv).advance

theorem execJal_keeps_wf (h : s.Wf) (ht : execJal a b d s = .next t) : t.Wf := by
  refine h.commit (fun u hu => ?_) ht
  obtain ⟨v, hv, hu⟩ := bind_eq_ok.1 hu
  cases hu
  exact (h.writeFe (feAdd_lt h.p_pos _ _) hv).jumpBy b

theorem branch_keeps_wf (h : s.Wf) {offset : Nat} {taken : Bool → Bool}
    (ht : s.branch a b offset d e taken = .next t) : t.Wf := by
  refine h.commit (fun u hu => ?_) ht
  simp only [bind_eq_ok] at hu
  obtain ⟨x, -, y, -, hu⟩ := hu
  cases hu
  split
  · exact h.jumpBy offset
  · exact h.advance

theorem execBeq_keeps_wf (h : s.Wf) (ht : execBeq a b c d e s = .next t) : t.Wf := branch_keeps_wf h ht

theorem execBne_keeps_wf (h : s.Wf) (ht : execBne a b c d e s = .next t) : t.Wf := branch_keeps_wf h ht

/-- The status goes with the report: no fault was reported while the run went on. -/
theorem execTerminate_keeps_wf (h : s.Wf) (hs : s.status = .running) (ht : execTerminate s = .next t) : t.Wf := by
  cases ht
  have hn : ¬ s.report.isSome = true := by simp [← h.report_iff, hs]
  exact { h with report_iff := by simpa using hn }

theorem execShintw_keeps_wf (h : s.Wf) (ht : execShintw a b d e s = .next t) : t.Wf := by
  refine h.commit (fun u hu => ?_) ht
  obtain ⟨addr, -, hu⟩ := bind_eq_ok.1 hu
  split at hu
  · cases hu
  · next w rest hstream =>
    have hints := h.hints_fit
    rw [hstream, List.forall_mem_cons] at hints
    obtain ⟨hw, hrest⟩ := hints
    obtain ⟨v, hv, hu⟩ := bind_eq_ok.1 hu
    cases hu
    refine (h.writeWord hw hv).advance.setHintStream ?_
    obtain ⟨-, rfl⟩ := State.writeWord_eq_ok_iff.1 hv
    simpa using hrest

theorem execPublish_keeps_wf (h : s.Wf) (ht : execPublish a b d e s = .next t) : t.Wf := by
  refine h.commit (fun u hu => ?_) ht
  simp only [bind_eq_ok] at hu
  obtain ⟨idx, -, val, -, hu⟩ := hu
  split at hu
  · cases hu
  · split at hu
    · cases hu; exact h.advance
    · cases hu

theorem execHintInput_keeps_wf (h : s.Wf) (ht : execHintInput s = .next t) : t.Wf := by
  refine h.commit (fun u hu => ?_) ht
  split at hu
  · cases hu
  · next i rest hin =>
    have inputs := h.inputs_fit
    rw [hin, List.forall_mem_cons] at inputs
    obtain ⟨hi, hrest⟩ := inputs
    cases hu
    exact { h.advance.setHintStream hi with inputs_fit := hrest }

theorem execHintBits_keeps_wf (h : s.Wf) (ht : execHintBits a d s = .next t) : t.Wf := by
  refine h.commit (fun u hu => ?_) ht
  obtain ⟨v, -, hu⟩ := bind_eq_ok.1 hu
  cases hu
  refine h.advance.setHintStream fun w hw => ?_
  obtain ⟨i, -, rfl⟩ := List.mem_map.1 hw
  have hbit : bitOf v i < 2 := Nat.mod_lt _ two_pos
  exact decompose_isWord (hbit.trans_le h.p_gt_one)

theorem fieldOp_keeps_wf (h : s.Wf) {op : Nat → Nat → Except FaultName Nat}
    (hop : ∀ x y z, op x y = .ok z → z < s.cfg.p) (ht : s.fieldOp a b c d e op = .next t) : t.Wf := by
  refine h.commit (fun u hu => ?_) ht
  simp only [bind_eq_ok] at hu
  obtain ⟨x, -, y, -, z, hz, v, hv, hu⟩ := hu
  cases hu
  exact (h.writeFe (hop x y z hz) hv).advance

theorem execFadd_keeps_wf (h : s.Wf) (ht : execFadd a b c d e s = .next t) : t.Wf :=
  fieldOp_keeps_wf h (by rintro x y z ⟨⟩; exact feAdd_lt h.p_pos x y) ht

theorem execFsub_keeps_wf (h : s.Wf) (ht : execFsub a b c d e s = .next t) : t.Wf :=
  fieldOp_keeps_wf h (by rintro x y z ⟨⟩; exact feSub_lt h.p_pos x y) ht

theorem execFmul_keeps_wf (h : s.Wf) (ht : execFmul a b c d e s = .next t) : t.Wf :=
  fieldOp_keeps_wf h (by rintro x y z ⟨⟩; exact feMul_lt h.p_pos x y) ht

theorem execFdiv_keeps_wf (h : s.Wf) (ht : execFdiv a b c d e s = .next t) : t.Wf := by
  refine fieldOp_keeps_wf h (fun x y z hz => ?_) ht
  split at hz
  · cases hz
  · cases hz; exact feMul_lt h.p_pos _ _

theorem extOp_keeps_wf (h : s.Wf) {op : Ext → Ext → Ext} (hop : ∀ x y, ∀ v ∈ (op x y).toList, v < s.cfg.p)
    (ht : s.extOp a b c d e op = .next t) : t.Wf := by
  refine h.commit (fun u hu => ?_) ht
  simp only [bind_eq_ok] at hu
  obtain ⟨x, -, y, -, v, hv, hu⟩ := hu
  cases hu
  exact (h.writeExt (hop x y) hv).advance

theorem execBbe4inv_keeps_wf (h : s.Wf) (ht : execBbe4inv a b d s = .next t) : t.Wf := by
  refine h.commit (fun u hu => ?_) ht
  obtain ⟨x, -, hu⟩ := bind_eq_ok.1 hu
  split at hu
  · cases hu
  · next r hr =>
    obtain ⟨v, hv, hu⟩ := bind_eq_ok.1 hu
    cases hu
    exact (h.writeExt (extInv_lt h.p_pos hr) hv).advance

section Hash

variable {perm : List Nat → List Nat}

theorem compressWith_keeps_wf (h : s.Wf) (hperm : ∀ l, ∀ v ∈ perm l, v < s.cfg.p)
    (ht : s.compressWith perm a b c d e = .ok t) : t.Wf := by
  simp only [State.compressWith, bind_eq_ok] at ht
  obtain ⟨qa, -, qb, -, qc, -, left, -, right, -, u, hu, ht⟩ := ht
  cases ht
  exact (h.writeFes (fun v hv => hperm _ v (List.mem_of_mem_take hv)) hu).advance

theorem permuteWith_keeps_wf (h : s.Wf) (hperm : ∀ l, ∀ v ∈ perm l, v < s.cfg.p)
    (ht : s.permuteWith perm a b c d e = .ok t) : t.Wf := by
  unfold State.permuteWith at ht
  split at ht
  · cases ht
  · simp only [bind_eq_ok] at ht
    obtain ⟨qa, -, qc, -, st, -, u, hu, ht⟩ := ht
    cases ht
    exact (h.writeFes (hperm st) hu).advance

/-- PERM_KECCAK stores words of one element, which it does only where `WORD_SIZE` is 1 (R154). -/
theorem keccakWith_keeps_wf (h : s.Wf) (ht : s.keccakWith perm a b c d e = .ok t) : t.Wf := by
  unfold State.keccakWith at ht
  split at ht
  · cases ht
  · next hsize =>
    split at ht
    · cases ht
    · simp only [bind_eq_ok] at ht
      obtain ⟨qa, -, qc, -, st, -, u, hu, ht⟩ := ht
      cases ht
      refine (h.writeDest (fun w hw => ?_) hu).advance
      obtain ⟨v, -, rfl⟩ := List.mem_map.1 hw
      exact ⟨(not_not.1 hsize).symm, by simpa using Nat.mod_lt v h.p_pos⟩

end Hash

theorem execPrintf_keeps_wf (h : s.Wf) (ht : execPrintf a d s = .next t) : t.Wf := by
  refine h.commit (fun u hu => ?_) ht
  obtain ⟨v, hv, hu⟩ := bind_eq_ok.1 hu
  cases hu
  have hlog : ∀ x ∈ s.printLog ++ [v], x < s.cfg.p :=
    List.forall_mem_append.2 ⟨h.log_lt, by simpa using State.readFe_lt h.p_pos hv⟩
  exact { h.advance with log_lt := hlog }

/-! ### The step -/

/-- The elements of a decoded instruction are elements of F (R72). -/
theorem wellFormed_of_decode {c : Config} {u : Tuple} {i : Instr} (h : decode c u = .ok i) :
    i.wellFormed c.p = true := by
  obtain ⟨hu, m, -, rfl⟩ := decode_eq_ok_iff.1 h
  simp_all [Tuple.wellFormed, Instr.wellFormed]

/-- Every instruction whose elements are in F keeps every value in range. -/
theorem exec_keeps_wf {i : Instr} (h : s.Wf) (hs : s.status = .running) (hi : i.wellFormed s.cfg.p = true)
    (ht : exec i s = .next t) : t.Wf := by
  cases i with
  | loadw => exact execLoadw_keeps_wf h ht
  | storew a =>
    have ha : a < s.cfg.p := of_decide_eq_true (List.all_eq_true.1 hi a List.mem_cons_self)
    exact execStorew_keeps_wf h ha ht
  | jal => exact execJal_keeps_wf h ht
  | beq => exact execBeq_keeps_wf h ht
  | bne => exact execBne_keeps_wf h ht
  | terminate => exact execTerminate_keeps_wf h hs ht
  | shintw => exact execShintw_keeps_wf h ht
  | publish => exact execPublish_keeps_wf h ht
  | hintInput => exact execHintInput_keeps_wf h ht
  | hintBits => exact execHintBits_keeps_wf h ht
  | fadd => exact execFadd_keeps_wf h ht
  | fsub => exact execFsub_keeps_wf h ht
  | fmul => exact execFmul_keeps_wf h ht
  | fdiv => exact execFdiv_keeps_wf h ht
  | fe4add => exact extOp_keeps_wf h (extAdd_lt h.p_pos) ht
  | fe4sub => exact extOp_keeps_wf h (extSub_lt h.p_pos) ht
  | bbe4mul => exact extOp_keeps_wf h (extMul_lt h.p_pos) ht
  | bbe4inv => exact execBbe4inv_keeps_wf h ht
  | compressPoseidon2 =>
    exact h.commit (fun _ => compressWith_keeps_wf h (poseidon2Perm_lt h.p_pos)) ht
  | permPoseidon2 =>
    exact h.commit (fun _ => permuteWith_keeps_wf h (poseidon2Perm_lt h.p_pos)) ht
  | permKeccak => exact h.commit (fun _ => keccakWith_keeps_wf h) ht
  | fail => cases ht; exact h.raise .fail
  | printf => exact execPrintf_keeps_wf h ht

/-- Settles O21: the step is the meaning of an instruction decoded from the program, whose elements are therefore in
F, or a fault of fetch or dispatch. -/
theorem stepKeepsEveryValueInRange : Obligations.StepKeepsEveryValueInRange := by
  intro s t h ht
  obtain ⟨hs, ⟨i, hi, he⟩ | ⟨n, rfl⟩⟩ := step_eq_next ht
  · obtain ⟨-, u, -, hd, -⟩ := nextInstr_eq_ok_iff.1 hi
    exact exec_keeps_wf h hs (wellFormed_of_decode hd) he
  · exact h.raise n

end Sys2Proof.Machine
end

section
/-! PROOFS of the statements about the state and its launch values (spec/10_state.md): the contents of an address
space, how an instruction leaves `pc`, the print log, the inputs and the status, and the launch and reset states.

Everything about instructions rests on one inversion, `exec_effect`: an instruction that answers a next state has raised
a fault, or has had one of the effects that `Effect` lists. -/

namespace Sys2Proof.Machine

/-! ### The contents of an address space -/

/-- A list in rising order of addresses lists no address twice: looking up an address finds its entry. -/
theorem lookupCell_of_mem {a v : Nat} :
    ∀ {l : List (Nat × Nat)}, (l.map Prod.fst).Pairwise (· < ·) → (a, v) ∈ l → lookupCell a l = some v
  | (x, w) :: r, hl, hm => by
    simp only [List.map_cons, List.pairwise_cons] at hl
    obtain ⟨hx, hr⟩ := hl
    rcases List.mem_cons.1 hm with heq | hm
    · cases heq; simp [lookupCell]
    · have hlt : x < a := hx a (List.mem_map_of_mem hm)
      simpa [lookupCell, hlt.ne] using lookupCell_of_mem hr hm

/-- In canonical form the entries are told by the reads: they are the addresses that do not read as unlisted, each with
what it reads as. -/
theorem Memory.mem_cells_iff {m : Memory} (h : m.wf) {a v : Nat} :
    (a, v) ∈ m.cells ↔ m.read a = some v ∧ fillAt a m.background ≠ some v := by
  obtain ⟨rising, unlisted⟩ := h
  unfold Memory.read
  constructor
  · intro hm
    exact ⟨by rw [lookupCell_of_mem rising hm], unlisted _ hm⟩
  · rintro ⟨hr, hb⟩
    cases hl : lookupCell a m.cells with
    | some x => rw [hl] at hr; cases hr; exact lookupCell_mem hl
    | none => rw [hl] at hr; exact absurd hr hb

/-- Settles O13: the entries have the same members, and a list in rising order is told by its members. -/
theorem equalReadsEqualMemory : Obligations.EqualReadsEqualMemory := by
  rintro ⟨background, cells⟩ ⟨background', cells'⟩ h h' rfl hread
  have rising : cells.Pairwise (Prod.fst ⁻¹'o (· < ·)) := (List.pairwise_map (f := Prod.fst)).1 h.1
  have rising' : cells'.Pairwise (Prod.fst ⁻¹'o (· < ·)) := (List.pairwise_map (f := Prod.fst)).1 h'.1
  have members : ∀ c, c ∈ cells ↔ c ∈ cells' := by
    rintro ⟨a, v⟩
    exact (Memory.mem_cells_iff h).trans (by rw [hread, Memory.mem_cells_iff h'])
  rw [rising.eq_of_mem_iff rising' members]

/-- Settles O11. -/
theorem domainsOfTheSpaces : Obligations.DomainsOfTheSpaces := by
  intro c addr
  constructor <;> simp [inDomain]

/-! ### What the result of an instruction is, if it answers one -/

/-- Whatever the computation answers has the property. -/
def Answers {α : Type} (P : α → Prop) (r : Except FaultName α) : Prop := ∀ x, r = .ok x → P x

section Answers

variable {α β : Type} {P : β → Prop} {Q : α → Prop}

theorem Answers.ok {y : β} (h : P y) : Answers P (.ok y) := by
  rintro x ⟨⟩; exact h

theorem Answers.error {n : FaultName} : Answers P (.error n) := nofun

theorem Answers.bind {r : Except FaultName α} {f : α → Except FaultName β} (hr : Answers Q r)
    (hf : ∀ x, Q x → Answers P (f x)) : Answers P (r >>= f) := by
  intro y hy
  obtain ⟨x, hx, hy⟩ := bind_eq_ok.1 hy
  exact hf x (hr x hx) y hy

/-- What a read answers plays no part in the property. -/
theorem Answers.after {r : Except FaultName α} {f : α → Except FaultName β} (hf : ∀ x, Answers P (f x)) :
    Answers P (r >>= f) := Answers.bind (Q := fun _ => True) (fun _ _ => trivial) fun x _ => hf x

end Answers

/-! ### What the writes leave alone -/

variable {s t : State} {as ptr q : Nat}

/-- From `s` to `t`, nothing but the address spaces differs. -/
abbrev State.OnlyWrites (s t : State) : Prop := s.SameBesides t ∧ t.pc = s.pc

theorem writeWord_onlyWrites {w : Word} : Answers s.OnlyWrites (s.writeWord as ptr w) := by
  intro t ht
  obtain ⟨-, rfl⟩ := State.writeWord_eq_ok_iff.1 ht
  simp [State.OnlyWrites, State.SameBesides, State.SameLaunch]

theorem writeFe_onlyWrites {v : Nat} : Answers s.OnlyWrites (s.writeFe as ptr v) := writeWord_onlyWrites

theorem writeFes_onlyWrites {vs : List Nat} : Answers s.OnlyWrites (s.writeFes as q vs) :=
  fun _ => State.writeWordsFrom_same

theorem writeExt_onlyWrites {x : Ext} : Answers s.OnlyWrites (s.writeExt as q x) := writeFes_onlyWrites

theorem writeDest_onlyWrites {ws : List Word} : Answers s.OnlyWrites (s.writeDest as q ws) :=
  fun _ ht => State.writeWordsFrom_same (State.writeDest_eq_ok_iff.1 ht).2

/-! ### How an instruction that ends nothing, prints nothing and takes no input goes on -/

/-- From `s` to `t` the run goes on at `pc`: but for `pc`, only the address spaces and the hint stream differ. -/
structure State.GoesOn (s : State) (pc : Nat) (t : State) : Prop where
  launch : s.SameLaunch t
  pc_eq : t.pc = pc
  inputs : t.inputs = s.inputs
  printLog : t.printLog = s.printLog
  verifiable : t.verifiable = s.verifiable
  status : t.status = s.status
  report : t.report = s.report

/-- The run goes on at the next instruction: `next()` of R10. -/
abbrev State.Advances (s t : State) : Prop := s.GoesOn (feAdd s.cfg.p s.pc s.cfg.instWidth) t

/-- The state that a jump leads to after the writes of an instruction. -/
theorem State.OnlyWrites.jumpBy (h : s.OnlyWrites t) (offset : Nat) :
    s.GoesOn (feAdd s.cfg.p s.pc offset) (t.jumpBy offset) := by
  obtain ⟨⟨launch, -, inputs, printLog, verifiable, status, report⟩, hpc⟩ := h
  obtain ⟨hcfg, -⟩ := id launch
  exact ⟨launch, by simp [hcfg, hpc], inputs, printLog, verifiable, status, report⟩

theorem State.advance_eq_jumpBy (s : State) : s.advance = s.jumpBy s.cfg.instWidth := rfl

theorem State.onlyWrites_refl (s : State) : s.OnlyWrites s := by
  simp [State.OnlyWrites, State.SameBesides, State.SameLaunch]

theorem State.goesOn_jumpBy (s : State) (offset : Nat) : s.GoesOn (feAdd s.cfg.p s.pc offset) (s.jumpBy offset) :=
  s.onlyWrites_refl.jumpBy offset

theorem State.advances_advance (s : State) : s.Advances s.advance := s.goesOn_jumpBy s.cfg.instWidth

theorem State.OnlyWrites.advance (h : s.OnlyWrites t) : s.Advances t.advance := by
  obtain ⟨⟨⟨hcfg, -⟩, -⟩, -⟩ := id h
  rw [State.advance_eq_jumpBy, hcfg]
  exact h.jumpBy s.cfg.instWidth

theorem State.GoesOn.setHintStream {pc : Nat} (h : s.GoesOn pc t) (ws : List Word) :
    s.GoesOn pc { t with hintStream := ws } := { h with }

/-- The last lines of every instruction that stores something and then advances. -/
theorem Answers.advance {r : Except FaultName State} (h : Answers s.OnlyWrites r) :
    Answers s.Advances (r >>= fun t => .ok t.advance) := h.bind fun _ ht => .ok ht.advance

/-! ### The effects of the instructions -/

/-- The mnemonics in the last row of the table of R20 that neither print nor take an input: they advance, and change
nothing else but the address spaces and the hint stream. -/
def Mnemonic.onlyAdvances : Mnemonic → Bool
  | .jal | .beq | .bne | .terminate | .hintInput | .fail | .printf => false
  | _ => true

/-- The effects of an instruction that raises no fault, by how they leave `pc`, the print log, the inputs and the
status (R20, R28, R31 to R33). FAIL has none. -/
inductive Effect (s : State) : Instr → State → Prop where
  | advances {i : Instr} {t : State} (hi : Mnemonic.onlyAdvances i.mnemonic = true) (h : s.Advances t) : Effect s i t
  | jal {a b c d e : Nat} {t : State} (h : s.GoesOn (feAdd s.cfg.p s.pc b) t) : Effect s (.jal a b c d e) t
  | beq {a b c d e : Nat} {t : State} (h : s.GoesOn (feAdd s.cfg.p s.pc c) t ∨ s.Advances t) :
    Effect s (.beq a b c d e) t
  | bne {a b c d e : Nat} {t : State} (h : s.GoesOn (feAdd s.cfg.p s.pc c) t ∨ s.Advances t) :
    Effect s (.bne a b c d e) t
  | terminate {a b c d e : Nat} : Effect s (.terminate a b c d e) { s with status := .terminated }
  | hintInput {a b c d e : Nat} {x : List Word} {rest : List (List Word)} (h : s.inputs = x :: rest) :
    Effect s (.hintInput a b c d e) { s.advance with hintStream := x, inputs := rest }
  | printf {a b c d e : Nat} (v : Nat) :
    Effect s (.printf a b c d e) { s.advance with printLog := s.printLog ++ [v], verifiable := false }

/-! ### What each meaning can do -/

/-- A meaning that ends in `commit` has the effect that its result answers, or has raised a fault (R170). -/
theorem Answers.commit {P : State → Prop} {r : Except FaultName State} (hr : Answers P r)
    (ht : s.commit r = .next t) : P t ∨ ∃ n, t = s.raise n :=
  (State.commit_eq_next ht).imp (hr t) fun ⟨n, _, h⟩ => ⟨n, h⟩

section Meanings

variable {a b c d e : Nat}

theorem execLoadw_advances (ht : execLoadw a b c d e s = .next t) : s.Advances t ∨ ∃ n, t = s.raise n :=
  Answers.commit (.after fun _ => .after fun _ => writeWord_onlyWrites.advance) ht

theorem execStorew_advances (ht : execStorew a b c d e s = .next t) : s.Advances t ∨ ∃ n, t = s.raise n :=
  Answers.commit (.after fun _ => .after fun _ => writeWord_onlyWrites.advance) ht

theorem execJal_goesOn (ht : execJal a b d s = .next t) :
    s.GoesOn (feAdd s.cfg.p s.pc b) t ∨ ∃ n, t = s.raise n :=
  Answers.commit (writeFe_onlyWrites.bind fun _ hu => .ok (hu.jumpBy b)) ht

theorem branch_goesOn {offset : Nat} {taken : Bool → Bool} (ht : s.branch a b offset d e taken = .next t) :
    (s.GoesOn (feAdd s.cfg.p s.pc offset) t ∨ s.Advances t) ∨ ∃ n, t = s.raise n := by
  refine Answers.commit (P := fun u => s.GoesOn (feAdd s.cfg.p s.pc offset) u ∨ s.Advances u)
    (.after fun x => .after fun y => .ok ?_) ht
  split
  · exact .inl (s.goesOn_jumpBy offset)
  · exact .inr s.advances_advance

theorem execBeq_goesOn (ht : execBeq a b c d e s = .next t) :
    (s.GoesOn (feAdd s.cfg.p s.pc c) t ∨ s.Advances t) ∨ ∃ n, t = s.raise n := branch_goesOn ht

theorem execBne_goesOn (ht : execBne a b c d e s = .next t) :
    (s.GoesOn (feAdd s.cfg.p s.pc c) t ∨ s.Advances t) ∨ ∃ n, t = s.raise n := branch_goesOn ht

theorem execShintw_advances (ht : execShintw a b d e s = .next t) : s.Advances t ∨ ∃ n, t = s.raise n := by
  refine Answers.commit (.after fun addr => ?_) ht
  split
  · exact .error
  · exact writeWord_onlyWrites.bind fun _ hu => .ok (hu.advance.setHintStream _)

theorem execPublish_advances (ht : execPublish a b d e s = .next t) : s.Advances t ∨ ∃ n, t = s.raise n := by
  refine Answers.commit (.after fun idx => .after fun val => ?_) ht
  split
  · exact .error
  · split
    · exact .ok s.advances_advance
    · exact .error

theorem execHintInput_effect (ht : execHintInput s = .next t) :
    Effect s (.hintInput a b c d e) t ∨ ∃ n, t = s.raise n := by
  refine Answers.commit ?_ ht
  split
  · exact .error
  · next x rest hin => exact .ok (.hintInput hin)

theorem execHintBits_advances (ht : execHintBits a d s = .next t) : s.Advances t ∨ ∃ n, t = s.raise n :=
  Answers.commit (.after fun _ => .ok (s.advances_advance.setHintStream _)) ht

theorem fieldOp_advances {op : Nat → Nat → Except FaultName Nat} (ht : s.fieldOp a b c d e op = .next t) :
    s.Advances t ∨ ∃ n, t = s.raise n :=
  Answers.commit (.after fun _ => .after fun _ => .after fun _ => writeFe_onlyWrites.advance) ht

theorem extOp_advances {op : Ext → Ext → Ext} (ht : s.extOp a b c d e op = .next t) :
    s.Advances t ∨ ∃ n, t = s.raise n :=
  Answers.commit (.after fun _ => .after fun _ => writeExt_onlyWrites.advance) ht

theorem execBbe4inv_advances (ht : execBbe4inv a b d s = .next t) : s.Advances t ∨ ∃ n, t = s.raise n := by
  refine Answers.commit (.after fun x => ?_) ht
  split
  · exact .error
  · exact writeExt_onlyWrites.advance

section Hash

variable {perm : List Nat → List Nat}

theorem compressWith_advances : Answers s.Advances (s.compressWith perm a b c d e) :=
  .after fun _ => .after fun _ => .after fun _ => .after fun _ => .after fun _ => writeFes_onlyWrites.advance

theorem permuteWith_advances : Answers s.Advances (s.permuteWith perm a b c d e) := by
  unfold State.permuteWith
  split
  · exact .error
  · exact .after fun _ => .after fun _ => .after fun _ => writeFes_onlyWrites.advance

theorem keccakWith_advances : Answers s.Advances (s.keccakWith perm a b c d e) := by
  unfold State.keccakWith
  split
  · exact .error
  · split
    · exact .error
    · exact .after fun _ => .after fun _ => .after fun _ => writeDest_onlyWrites.advance

end Hash

theorem execPrintf_effect (ht : execPrintf a d s = .next t) :
    Effect s (.printf a b c d e) t ∨ ∃ n, t = s.raise n :=
  Answers.commit (.after fun v => .ok (.printf v)) ht

end Meanings

/-! ### What an instruction can do -/

/-- An instruction that answers a next state has had one of its effects or has raised a fault. -/
theorem exec_effect {i : Instr} (ht : exec i s = .next t) : Effect s i t ∨ ∃ n, t = s.raise n := by
  cases i with
  | loadw => exact (execLoadw_advances ht).imp_left (.advances rfl)
  | storew => exact (execStorew_advances ht).imp_left (.advances rfl)
  | jal => exact (execJal_goesOn ht).imp_left .jal
  | beq => exact (execBeq_goesOn ht).imp_left .beq
  | bne => exact (execBne_goesOn ht).imp_left .bne
  | terminate => cases ht; exact .inl .terminate
  | shintw => exact (execShintw_advances ht).imp_left (.advances rfl)
  | publish => exact (execPublish_advances ht).imp_left (.advances rfl)
  | hintInput => exact execHintInput_effect ht
  | hintBits => exact (execHintBits_advances ht).imp_left (.advances rfl)
  | fadd | fsub | fmul | fdiv => exact (fieldOp_advances ht).imp_left (.advances rfl)
  | fe4add | fe4sub | bbe4mul => exact (extOp_advances ht).imp_left (.advances rfl)
  | bbe4inv => exact (execBbe4inv_advances ht).imp_left (.advances rfl)
  | compressPoseidon2 => exact (compressWith_advances.commit ht).imp_left (.advances rfl)
  | permPoseidon2 => exact (permuteWith_advances.commit ht).imp_left (.advances rfl)
  | permKeccak => exact (keccakWith_advances.commit ht).imp_left (.advances rfl)
  | fail => cases ht; exact .inr ⟨.fail, rfl⟩
  | printf => exact execPrintf_effect ht

/-- The run goes on after every effect but that of TERMINATE, which ends it and changes nothing else (R31, R107). -/
theorem Effect.status_cases {i : Instr} (h : Effect s i t) :
    t.status = s.status ∨ (∃ a b c d e, i = .terminate a b c d e) ∧ t = { s with status := .terminated } := by
  cases h with
  | advances _ h | jal h => exact .inl h.status
  | beq h | bne h => exact .inl (h.elim State.GoesOn.status State.GoesOn.status)
  | terminate => exact .inr ⟨⟨_, _, _, _, _, rfl⟩, rfl⟩
  | hintInput | printf => exact .inl rfl

/-! ### The program counter, the print log, the inputs and the end of a run -/

/-- Settles O25. -/
theorem stepSetsTheProgramCounter : Obligations.StepSetsTheProgramCounter := by
  intro s t i hs ht
  rcases exec_effect ht with heff | ⟨n, rfl⟩
  · constructor
    · intro hend
      rcases heff.status_cases with hst | ⟨-, rfl⟩
      · exact absurd (hst.trans hs) hend
      · rfl
    · intro hrun
      cases heff with
      | advances hi h =>
        refine ⟨?_, ?_, fun _ _ _ => h.pc_eq⟩
        · rintro a b c d e rfl; cases hi
        · rintro a b c d e (rfl | rfl) <;> cases hi
      | jal h =>
        refine ⟨?_, by simp, by simp [Instr.mnemonic]⟩
        rintro _ _ _ _ _ ⟨⟩; exact h.pc_eq
      | beq h | bne h =>
        refine ⟨by simp, ?_, by simp [Instr.mnemonic]⟩
        rintro _ _ _ _ _ (⟨⟨⟩⟩ | ⟨⟨⟩⟩); exact h.imp State.GoesOn.pc_eq State.GoesOn.pc_eq
      | terminate => cases hrun
      | hintInput | printf => simp [feAdd]
  · exact ⟨fun _ => rfl, nofun⟩

/-- Settles O26. -/
theorem onlyPrintfPrintsAndOnlyHintInputTakesInputs : Obligations.OnlyPrintfPrintsAndOnlyHintInputTakesInputs := by
  intro s t i ht
  rcases exec_effect ht with heff | ⟨n, rfl⟩
  · cases heff with
    | advances _ h | jal h => simp [h.printLog, h.verifiable, h.inputs]
    | beq h | bne h => rcases h with h | h <;> simp [h.printLog, h.verifiable, h.inputs]
    | terminate => simp
    | hintInput h => simp [Instr.mnemonic, h]
    | printf v => simp [Instr.mnemonic]
  · simp

/-- Settles O27: a fault leads to a state that is Failed, and of the effects only that of TERMINATE ends a run. -/
theorem onlyTerminateAccepts : Obligations.OnlyTerminateAccepts := by
  intro s t ht hend
  obtain ⟨hs, ⟨i, hi, he⟩ | ⟨n, rfl⟩⟩ := step_eq_next ht
  · rcases exec_effect he with heff | ⟨n, rfl⟩
    · rcases heff.status_cases with hst | ⟨⟨a, b, c, d, e, rfl⟩, rfl⟩
      · rw [hst, hs] at hend; cases hend
      · exact ⟨⟨a, b, c, d, e, hi⟩, rfl⟩
    · cases hend
  · cases hend

/-- Settles O18. -/
theorem endedRunTakesNoStep : Obligations.EndedRunTakesNoStep := by
  intro s hs t ht
  exact hs (step_eq_next ht).1

/-! ### The launch and the reset state -/

/-- A read of an address of the domain that has no value faults (R35, R46). -/
theorem State.readElem_of_peek_eq_none {addr : Nat} (has : as = 1 ∨ as = 2) (hd : inDomain s.cfg as addr = true)
    (hn : s.peek as addr = none) : s.readElem as addr = .error .uninitRead := by
  rw [State.peek, if_pos has] at hn
  simp [State.readElem, hd, hn]

/-- Settles O32. -/
theorem launchState : Obligations.LaunchState := fun l =>
  ⟨rfl, rfl, rfl, rfl, rfl, rfl, rfl, rfl, fun _ _ => State.readElem_of_peek_eq_none (s := l.state)⟩

/-- The reset registers fit their domain, and the reset memory is empty. -/
theorem reset_memory_fits :
    FitsSpace State.reset.cfg 1 State.reset.regs ∧ FitsSpace State.reset.cfg 2 State.reset.mem :=
  ⟨fitsSpace_iff.1 (by decide), fitsSpace_iff.1 (by decide)⟩

/-- Settles O22. -/
theorem resetHasEveryValueInRange : Obligations.ResetHasEveryValueInRange where
  p_gt_one := by decide
  pc_lt := by decide
  regs_fit := reset_memory_fits.1
  mem_fit := reset_memory_fits.2
  hints_fit := nofun
  inputs_fit := nofun
  log_lt := nofun
  report_iff := by decide

/-- Every address of the registers' domain reads 0 after reset (log entry 3). -/
theorem reset_peek_regs (addr : Nat) :
    State.reset.peek 1 addr = if addr < State.reset.cfg.p then some 0 else none := by
  have background_read : State.reset.peek 1 addr = fillAt addr [⟨0, State.reset.cfg.p, 0⟩] := rfl
  simp [background_read, fillAt]

/-- No cell of memory has a value after reset (log entry 4). -/
theorem reset_peek_mem (addr : Nat) : State.reset.peek 2 addr = none := rfl

/-- Settles O33. -/
theorem resetState : Obligations.ResetState :=
  ⟨rfl, rfl, rfl, rfl, rfl, rfl, rfl, rfl, rfl, reset_peek_regs, reset_peek_mem⟩

end Sys2Proof.Machine
end

section
/-! PROOFS of the statements about words, elements and the access primitives (spec/20_memory.md): the conversions, the
checks of a read and of a write in their order, a write read back, and the launch parameters, which no step changes.

A read of a word depends on the configuration and on what `peek` gives at the addresses of the word, and on nothing
else (`State.readWord_congr`); a write is `State.putWord`, which changes `peek` at those addresses alone
(`State.putWord_storesWord`). -/

namespace Sys2Proof.Machine

/-! ### The conversions -/

section Conversions

variable {c : Config} {limbBits : Nat}

/-- With `WORD_SIZE = 1` the pair is the identity on F, whatever is configured (R42). -/
theorem compose_of_wordSize_eq_one {v : Nat} (h1 : c.wordSize = 1) (hv : v < c.p) : compose c [v] = v := by
  simp [compose, h1, Nat.mod_eq_of_lt hv]

theorem decompose_of_wordSize_eq_one (h1 : c.wordSize = 1) (v : Nat) : decompose c v = [v] := by
  simp [decompose, decomposeElem, h1]

theorem compose_limbs (hc : c.conversion = .limbs limbBits) (h1 : c.wordSize ≠ 1) (w : Word) :
    compose c w = limbSum limbBits w % c.p := by
  simp [compose, hc, h1]

theorem decompose_limbs (hc : c.conversion = .limbs limbBits) (h1 : c.wordSize ≠ 1) (v : Nat) :
    decompose c v = (List.range c.wordSize).map fun i => v / 2 ^ (limbBits * i) % 2 ^ limbBits := by
  simp [decompose, decomposeElem, hc, h1]

/-- Horner's form of R43's sum is the sum. -/
theorem limbSum_eq_sum (limbBits : Nat) :
    ∀ w : Word, limbSum limbBits w = ∑ i ∈ Finset.range w.length, w.getD i 0 * 2 ^ (limbBits * i)
  | [] => rfl
  | v :: w => by
    have shift : ∀ i, w.getD i 0 * 2 ^ (limbBits * (i + 1)) = 2 ^ limbBits * (w.getD i 0 * 2 ^ (limbBits * i)) := by
      intro i; ring
    simp only [limbSum, limbSum_eq_sum limbBits w, List.length_cons, Finset.sum_range_succ', List.getD_cons_succ,
      List.getD_cons_zero, shift, Finset.mul_sum]
    simp [Nat.add_comm]

/-- The first `n` limbs of a number are its low bits. -/
theorem limbSum_limbs (limbBits : Nat) :
    ∀ n v : Nat, limbSum limbBits ((List.range n).map fun i => v / 2 ^ (limbBits * i) % 2 ^ limbBits) =
      v % 2 ^ (limbBits * n)
  | 0, v => by simp [limbSum, Nat.mod_one]
  | n + 1, v => by
    have shift : ∀ i, v / 2 ^ (limbBits * (i + 1)) = v / 2 ^ limbBits / 2 ^ (limbBits * i) := by
      intro i; rw [Nat.div_div_eq_div_mul, ← pow_add, Nat.mul_succ, Nat.add_comm]
    have hlow : 2 ^ (limbBits * (n + 1)) = 2 ^ limbBits * 2 ^ (limbBits * n) := by
      rw [← pow_add, Nat.mul_succ, Nat.add_comm]
    rw [List.range_succ_eq_map, List.map_cons, List.map_map, hlow, Nat.mod_mul,
      ← limbSum_limbs limbBits n (v / 2 ^ limbBits)]
    simp [limbSum, Function.comp_def, shift]

/-- `F::bits()` bits hold every element of F (log entry 35). -/
theorem lt_two_pow_feBits {p v : Nat} (hv : v < p) : v < 2 ^ feBits p :=
  lt_of_le_of_lt (Nat.le_sub_one_of_lt hv) Nat.lt_log2_self

/-- The default pair undoes itself when a word has limbs enough for an element (R44). -/
theorem compose_decompose_limbs (hc : c.conversion = .limbs limbBits) (h1 : c.wordSize ≠ 1)
    (hbits : feBits c.p ≤ c.wordSize * limbBits) {v : Nat} (hv : v < c.p) : compose c (decompose c v) = v := by
  have hfits : v < 2 ^ (limbBits * c.wordSize) :=
    calc v < 2 ^ feBits c.p := lt_two_pow_feBits hv
      _ ≤ 2 ^ (limbBits * c.wordSize) := Nat.pow_le_pow_right (by omega) (by rwa [Nat.mul_comm])
  rw [compose_limbs hc h1, decompose_limbs hc h1, limbSum_limbs, Nat.mod_eq_of_lt hfits, Nat.mod_eq_of_lt hv]

end Conversions

/-- Settles O7. -/
theorem defaultPairComposes : Obligations.DefaultPairComposes := by
  refine ⟨fun c v h1 hv => ⟨compose_of_wordSize_eq_one h1 hv, decompose_of_wordSize_eq_one h1 v⟩, ?_,
    by decide, by decide, by decide, by decide⟩
  intro c limbBits hc hsize
  have h1 : c.wordSize ≠ 1 := by omega
  refine ⟨fun w hw => ?_, fun v hv => ⟨fun i hi => ?_, fun hbits => compose_decompose_limbs hc h1 hbits hv⟩⟩
  · rw [compose_limbs hc h1, limbSum_eq_sum, hw]
  · simp [decompose_limbs hc h1, hi]

/-! ### A check made on each member of a list -/

section MapOk

variable {α β : Type} {f g : α → Except FaultName β}

theorem mapOk_congr : ∀ {l : List α}, (∀ x ∈ l, f x = g x) → mapOk f l = mapOk g l
  | [], _ => rfl
  | x :: l, h => by
    have ih : mapOk f l = mapOk g l := mapOk_congr fun y hy => h y (List.mem_cons_of_mem _ hy)
    simp only [mapOk, h x List.mem_cons_self, ih]

theorem mapOk_exists_ok : ∀ {l : List α}, (∀ x ∈ l, ∃ y, f x = .ok y) → ∃ r, mapOk f l = .ok r
  | [], _ => ⟨[], rfl⟩
  | x :: l, h => by
    obtain ⟨y, hy⟩ := h x List.mem_cons_self
    obtain ⟨r, hr⟩ := mapOk_exists_ok fun z hz => h z (List.mem_cons_of_mem _ hz)
    exact ⟨y :: r, by simp [mapOk, hy, hr]⟩

/-- The fault of the first member that has one, whatever stands behind it. -/
theorem mapOk_append_cons_eq_error {n : FaultName} {x : α} (hx : f x = .error n) (l' : List α) :
    ∀ {l : List α}, (∀ y ∈ l, ∃ z, f y = .ok z) → mapOk f (l ++ x :: l') = .error n
  | [], _ => by simp [mapOk, hx]
  | y :: l, h => by
    obtain ⟨z, hz⟩ := h y List.mem_cons_self
    have ih : mapOk f (l ++ x :: l') = .error n :=
      mapOk_append_cons_eq_error hx l' fun u hu => h u (List.mem_cons_of_mem _ hu)
    simp [mapOk, hz, ih]

/-- `mapOk` over `0 .. n` answers the fault of the first index that has one. -/
theorem mapOk_range_eq_error {f : Nat → Except FaultName β} {n j : Nat} {e : FaultName} (hj : j < n)
    (hfirst : ∀ i < j, ∃ y, f i = .ok y) (he : f j = .error e) : mapOk f (List.range n) = .error e := by
  obtain ⟨k, rfl⟩ := Nat.exists_eq_add_of_lt hj
  rw [Nat.add_assoc, List.range_add, List.range_succ_eq_map, List.map_cons]
  exact mapOk_append_cons_eq_error he _ (by simpa using hfirst)

end MapOk

/-! ### The checks of an access -/

section Checks

variable {c : Config} {as ptr : Nat}

theorem accessFault_of_four_le (h : 4 ≤ as) : accessFault c as ptr = some .asInvalid := by
  simp [accessFault, h, show as ≠ 3 by omega]

theorem accessFault_of_misaligned (has : as = 1 ∨ as = 2) (h : ptr % c.wordSize ≠ 0) :
    accessFault c as ptr = some .misaligned := by
  rcases has with rfl | rfl <;> simp [accessFault, h]

theorem accessFault_of_pastEnd (has : as = 1 ∨ as = 2) (h : ptr % c.wordSize = 0) (hp : c.p < ptr + c.wordSize) :
    accessFault c as ptr = some .outOfDomain := by
  rcases has with rfl | rfl <;> simp [accessFault, h, hp]

/-- An address of a domain is an element of F (R25). -/
theorem lt_of_inDomain {addr : Nat} (h : inDomain c as addr = true) : addr < c.p := by
  simp only [inDomain, Bool.and_eq_true, decide_eq_true_eq] at h
  exact h.1

theorem writeFault_of_accessFault {n : FaultName} (h0 : as ≠ 0) (h : accessFault c as ptr = some n) :
    writeFault c as ptr = some n := by
  simp [writeFault, h0, h]

theorem writeFault_of_outside {j : Nat} (has : as = 1 ∨ as = 2) (h : ptr % c.wordSize = 0) (hj : j < c.wordSize)
    (hd : inDomain c as (ptr + j) = false) : writeFault c as ptr = some .outOfDomain := by
  have h0 : as ≠ 0 := by omega
  rcases Nat.lt_or_ge c.p (ptr + c.wordSize) with hp | hp
  · exact writeFault_of_accessFault h0 (accessFault_of_pastEnd has h hp)
  · have ha : accessFault c as ptr = none := accessFault_eq_none_iff.2 ⟨by omega, h, hp⟩
    simp only [writeFault, h0, if_false, ha, List.all_eq_true, List.mem_range]
    exact if_neg fun hall => by simp [hall j hj] at hd

end Checks

variable {s t : State} {as ptr : Nat}

/-! ### Reads -/

theorem State.readFe_of_readWord_ok {w : Word} (h : s.readWord as ptr = .ok w) :
    s.readFe as ptr = .ok (compose s.cfg w) := by simp [State.readFe, h]

theorem State.readFe_of_readWord_error {n : FaultName} (h : s.readWord as ptr = .error n) :
    s.readFe as ptr = .error n := by simp [State.readFe, h]

theorem State.readWord_of_accessFault {n : FaultName} (h0 : as ≠ 0) (h : accessFault s.cfg as ptr = some n) :
    s.readWord as ptr = .error n := by
  simp [State.readWord, h0, h]

theorem State.readWord_of_accessFault_none (h0 : as ≠ 0) (h : accessFault s.cfg as ptr = none) :
    s.readWord as ptr = mapOk (fun j => s.readElem as (ptr + j)) (List.range s.cfg.wordSize) := by
  simp [State.readWord, h0, h]

theorem State.readElem_of_outside {addr : Nat} (h : inDomain s.cfg as addr = false) :
    s.readElem as addr = .error .outOfDomain := by
  simp [State.readElem, h]

theorem State.readElem_exists_ok {addr : Nat} (has : as = 1 ∨ as = 2)
    (h : inDomain s.cfg as addr = true ∧ s.peek as addr ≠ none) : ∃ v, s.readElem as addr = .ok v := by
  obtain ⟨hd, hv⟩ := h
  rw [State.peek, if_pos has] at hv
  obtain ⟨v, hv⟩ := Option.ne_none_iff_exists'.1 hv
  exact ⟨v, State.readElem_eq_ok_iff.2 ⟨hd, hv⟩⟩

/-- The read of an aligned word inside F answers the fault of its first element that has one (R46). -/
theorem State.readWord_eq_error {j : Nat} {n : FaultName} (has : as = 1 ∨ as = 2) (halign : ptr % s.cfg.wordSize = 0)
    (hp : ptr + s.cfg.wordSize ≤ s.cfg.p) (hj : j < s.cfg.wordSize)
    (hfirst : ∀ i < j, inDomain s.cfg as (ptr + i) = true ∧ s.peek as (ptr + i) ≠ none)
    (he : s.readElem as (ptr + j) = .error n) : s.readWord as ptr = .error n := by
  rw [State.readWord_of_accessFault_none (by omega) (accessFault_eq_none_iff.2 ⟨by omega, halign, hp⟩)]
  exact mapOk_range_eq_error hj (fun i hi => State.readElem_exists_ok has (hfirst i hi)) he

/-- The read of an aligned word inside F answers a word when each of its elements has a value (R46). -/
theorem State.readWord_exists_ok (has : as = 1 ∨ as = 2) (halign : ptr % s.cfg.wordSize = 0)
    (hp : ptr + s.cfg.wordSize ≤ s.cfg.p)
    (hall : ∀ j < s.cfg.wordSize, inDomain s.cfg as (ptr + j) = true ∧ s.peek as (ptr + j) ≠ none) :
    ∃ w, s.readWord as ptr = .ok w := by
  rw [State.readWord_of_accessFault_none (by omega) (accessFault_eq_none_iff.2 ⟨by omega, halign, hp⟩)]
  exact mapOk_exists_ok fun j hj => State.readElem_exists_ok has (hall j (List.mem_range.1 hj))

/-- Settles O9. A word with an element in the domain lies inside F, so that in the clauses about elements the check for
a word past `p - 1` is passed, or faults with the same name. -/
theorem readWordChecks : Obligations.ReadWordChecks := by
  intro s as ptr hsize
  refine ⟨fun w => State.readFe_of_readWord_ok, fun n => State.readFe_of_readWord_error, ?_, ?_, ?_, fun has => ?_⟩
  · rintro rfl; exact s.readWord_immediate ptr
  · rintro rfl; exact State.readWord_of_accessFault (by decide) rfl
  · exact fun h => State.readWord_of_accessFault (by omega) (accessFault_of_four_le h)
  have h0 : as ≠ 0 := by omega
  refine ⟨fun h => State.readWord_of_accessFault h0 (accessFault_of_misaligned has h), fun halign => ⟨fun hend => ?_,
    fun hend => ⟨fun j hj hfirst => ⟨fun hd => ?_, fun hd hn => ?_⟩, fun hall => ?_⟩⟩⟩
  · exact State.readWord_of_accessFault h0 (accessFault_of_pastEnd has halign (by omega))
  · rcases Nat.lt_or_ge s.cfg.p (ptr + s.cfg.wordSize) with hp | hp
    · exact State.readWord_of_accessFault h0 (accessFault_of_pastEnd has halign hp)
    · exact State.readWord_eq_error has halign hp hj hfirst (State.readElem_of_outside hd)
  · have hlt := lt_of_inDomain hd
    exact State.readWord_eq_error has halign (by omega) hj hfirst (State.readElem_of_peek_eq_none has hd hn)
  · have hlt := lt_of_inDomain (hall 0 hsize).1
    obtain ⟨w, hw⟩ := State.readWord_exists_ok has halign (by omega) hall
    obtain ⟨-, -, -, hlen, helems⟩ := (State.readWord_eq_ok_iff h0).1 hw
    exact ⟨w, hw, hlen, fun j hj => (helems j hj).2⟩

/-! ### Writes -/

theorem State.writeWord_of_writeFault {n : FaultName} (h : writeFault s.cfg as ptr = some n) (w : Word) :
    s.writeWord as ptr w = .error n := by
  simp [State.writeWord, h]

/-- The effect of a write on the address spaces (R47). -/
theorem State.putWord_storesWord {w : Word} (has : as = 1 ∨ as = 2) (hm : (s.space as).wf)
    (hw : w.length = s.cfg.wordSize) : s.StoresWord (s.putWord as ptr w) as ptr w := by
  refine ⟨fun j hj => State.peek_putWord_inside has hm hj, fun as' addr hout => State.peek_putWord_outside has ?_⟩
  by_cases he : as' = as
  · have := hout he
    simp only [InWord] at this
    omega
  · exact .inl he

/-- Settles O10. -/
theorem writeWordChecks : Obligations.WriteWordChecks := by
  intro s as ptr w hsize hw
  refine ⟨fun v => rfl, ?_, ?_, ?_, fun has => ?_⟩
  · rintro rfl; exact State.writeWord_of_writeFault rfl w
  · rintro rfl; exact State.writeWord_of_writeFault rfl w
  · exact fun h => State.writeWord_of_writeFault
      (writeFault_of_accessFault (by omega) (accessFault_of_four_le h)) w
  have h0 : as ≠ 0 := by omega
  refine ⟨fun h => ?_, fun halign => ⟨fun hend => ?_, fun hend => ⟨?_, fun hall hm => ?_⟩⟩⟩
  · exact State.writeWord_of_writeFault (writeFault_of_accessFault h0 (accessFault_of_misaligned has h)) w
  · exact State.writeWord_of_writeFault
      (writeFault_of_accessFault h0 (accessFault_of_pastEnd has halign (by omega))) w
  · rintro ⟨j, hj, hd⟩
    exact State.writeWord_of_writeFault (writeFault_of_outside has halign hj hd) w
  · have hlt := lt_of_inDomain (hall 0 hsize)
    have hok : s.writeWord as ptr w = .ok (s.putWord as ptr w) :=
      State.writeWord_eq_ok_iff.2 ⟨writeFault_eq_none_iff.2 ⟨has, halign, by omega, hall⟩, rfl⟩
    obtain ⟨hsame, hpc⟩ := writeWord_onlyWrites _ hok
    exact ⟨_, hok, State.putWord_storesWord has hm hw, hpc, hsame⟩

/-! ### A write read back -/

theorem State.readElem_congr {addr : Nat} (hc : t.cfg = s.cfg) (has : as = 1 ∨ as = 2)
    (h : t.peek as addr = s.peek as addr) : t.readElem as addr = s.readElem as addr := by
  simp only [State.peek, if_pos has] at h
  simp only [State.readElem, hc, h]

/-- A read of a word depends on the configuration, and on what an access that passes its first checks finds at the
addresses of the word. -/
theorem State.readWord_congr (hc : t.cfg = s.cfg)
    (h : accessFault s.cfg as ptr = none → ∀ j < s.cfg.wordSize, t.peek as (ptr + j) = s.peek as (ptr + j)) :
    t.readWord as ptr = s.readWord as ptr := by
  by_cases h0 : as = 0
  · subst h0; simp [hc]
  cases ha : accessFault s.cfg as ptr with
  | some n => rw [State.readWord_of_accessFault h0 ha, State.readWord_of_accessFault h0 (hc ▸ ha)]
  | none =>
    have has : as = 1 ∨ as = 2 := by have := (accessFault_eq_none_iff.1 ha).1; omega
    rw [State.readWord_of_accessFault_none h0 ha, State.readWord_of_accessFault_none h0 (hc ▸ ha), hc]
    exact mapOk_congr fun j hj => State.readElem_congr hc has (h ha j (List.mem_range.1 hj))

/-- Two aligned words at different addresses have no address in common (R49). -/
theorem aligned_words_disjoint {size a b j : Nat} (ha : a % size = 0) (hb : b % size = 0) (hne : b ≠ a) (hj : j < size) :
    b + j < a ∨ a + size ≤ b + j := by
  have hmod : a ≡ b [MOD size] := ha.trans hb.symm
  rcases Nat.lt_or_gt_of_ne hne with hlt | hlt
  · have := hmod.symm.add_le_of_lt hlt
    omega
  · have := hmod.add_le_of_lt hlt
    omega

/-- Settles O12. The checks of a write include those of a read of the same word, and only its elements change. -/
theorem readAfterWrite : Obligations.ReadAfterWrite := by
  intro s t as ptr w hm hw ht
  obtain ⟨hf, rfl⟩ := State.writeWord_eq_ok_iff.1 ht
  obtain ⟨has, halign, hp, hd⟩ := writeFault_eq_none_iff.1 hf
  constructor
  · rw [State.readWord_eq_ok_iff (by omega), State.putWord_cfg]
    exact ⟨has, halign, hp, hw, fun j hj => ⟨hd j hj, State.peek_putWord_inside has hm (by omega)⟩⟩
  · intro as' ptr' hother
    refine State.readWord_congr (by simp) fun ha j hj => State.peek_putWord_outside has ?_
    obtain ⟨-, halign', -⟩ := accessFault_eq_none_iff.1 ha
    rw [hw]
    exact hother.imp_right fun hne => aligned_words_disjoint halign halign' hne hj

/-! ### The launch parameters -/

/-- No effect of an instruction changes the configuration, the program or the public values. -/
theorem Effect.sameLaunch {i : Instr} (h : Effect s i t) : s.SameLaunch t := by
  cases h with
  | advances _ h | jal h => exact h.launch
  | beq h | bne h => exact h.elim State.GoesOn.launch State.GoesOn.launch
  | terminate | hintInput | printf => exact ⟨rfl, rfl, rfl⟩

/-- Settles O24. -/
theorem stepKeepsTheLaunchParameters : Obligations.StepKeepsTheLaunchParameters := by
  intro s t ht
  obtain ⟨-, ⟨i, -, he⟩ | ⟨n, rfl⟩⟩ := step_eq_next ht
  · rcases exec_effect he with heff | ⟨n, rfl⟩
    · exact heff.sameLaunch
    · exact ⟨rfl, rfl, rfl⟩
  · exact ⟨rfl, rfl, rfl⟩

end Sys2Proof.Machine
end

section
/-! PROOFS of the statements about instruction encoding (spec/30_encoding.md): decoding against encoding, the
assembly lines, immediates, fetch and dispatch, and the operand forms that are singled out: the destinations
that cannot be written, the unused elements and the idioms of R86.

Decoding and encoding are both told by `Mnemonic.instr`: every instruction is the instruction of its mnemonic and its
five elements (`exists_eq_instr`), `encode_instr` and `decode_eq_ok_iff` say what the two functions do to it, and
with an injective numbering a mnemonic is told by its number (`mnemonicOf_opcodeOf`). -/

namespace Sys2Proof.Machine

/-! ### Decoding and encoding -/

section Encoding

variable {c : Config} {u : Tuple} {i : Instr}

theorem exists_eq_instr (i : Instr) : ∃ m : Mnemonic, ∃ a b c d e, i = m.instr a b c d e := by
  refine ⟨i.mnemonic, ?_⟩
  cases i <;> exact ⟨_, _, _, _, _, rfl⟩

@[simp] theorem encode_instr (c : Config) (m : Mnemonic) (x1 x2 x3 x4 x5 : Nat) :
    encode c (m.instr x1 x2 x3 x4 x5) = ⟨c.opcodeOf m, x1, x2, x3, x4, x5⟩ := by
  cases m <;> rfl

theorem wellFormed_instr_iff {p x1 x2 x3 x4 x5 : Nat} (m : Mnemonic) :
    (m.instr x1 x2 x3 x4 x5).wellFormed p = true ↔ x1 < p ∧ x2 < p ∧ x3 < p ∧ x4 < p ∧ x5 < p := by
  simp [Instr.wellFormed]

theorem tuple_wellFormed_iff {p : Nat} :
    u.wellFormed p = true ↔ u.opcode < p ∧ u.a < p ∧ u.b < p ∧ u.c < p ∧ u.d < p ∧ u.e < p := by
  simp [Tuple.wellFormed, and_assoc]

/-- Two mnemonics with one number are the same mnemonic (R77). -/
theorem opcodeOf_injective (h : c.OpcOk) : Function.Injective c.opcodeOf := fun m n heq =>
  List.inj_on_of_nodup_map h.1 (mem_all m) (mem_all n) heq

/-- With an injective numbering, the mnemonic with the number of `m` is `m`. -/
theorem mnemonicOf_opcodeOf (h : c.OpcOk) (m : Mnemonic) : c.mnemonicOf (c.opcodeOf m) = some m := by
  cases hm : c.mnemonicOf (c.opcodeOf m) with
  | none => exact absurd rfl (mnemonicOf_eq_none_iff.1 hm m)
  | some n => rw [opcodeOf_injective h (opcodeOf_of_mnemonicOf hm)]

/-- A number that no mnemonic has is no opcode (R80). -/
theorem decode_eq_opcodeUnknown_iff (hu : u.wellFormed c.p = true) :
    decode c u = .error (.opcodeUnknown u.opcode) ↔ ∀ m, c.opcodeOf m ≠ u.opcode := by
  rw [← mnemonicOf_eq_none_iff]
  cases hm : c.mnemonicOf u.opcode <;> simp [decode, hu, hm]

/-- A group of elements of F is an instruction when some mnemonic has its first element as number (R80). -/
theorem exists_decode_eq_ok_iff (hu : u.wellFormed c.p = true) :
    (∃ i, decode c u = .ok i) ↔ ∃ m, c.opcodeOf m = u.opcode := by
  simp only [decode_eq_ok_iff, hu, true_and]
  constructor
  · rintro ⟨i, m, hm, -⟩
    exact ⟨m, opcodeOf_of_mnemonicOf hm⟩
  · rintro ⟨m, hm⟩
    have hsome : c.mnemonicOf u.opcode ≠ none := fun hnone => mnemonicOf_eq_none_iff.1 hnone m hm
    obtain ⟨n, hn⟩ := Option.ne_none_iff_exists'.1 hsome
    exact ⟨_, n, hn, rfl⟩

/-- A group with an element outside F is refused, and nothing of it is reduced (R72). -/
theorem decode_of_not_wellFormed (hu : ¬ u.wellFormed c.p = true) : decode c u = .error .elementOutOfRange :=
  if_neg hu

/-- With an injective numbering, a group of elements of F whose first is the number of `m` is an instruction of `m`. -/
theorem decode_of_opcodeOf_eq (h : c.OpcOk) (hu : u.wellFormed c.p = true) {m : Mnemonic}
    (hm : c.opcodeOf m = u.opcode) : decode c u = .ok (m.instr u.a u.b u.c u.d u.e) :=
  decode_eq_ok_iff.2 ⟨hu, m, hm ▸ mnemonicOf_opcodeOf h m, rfl⟩

end Encoding

/-- Settles O1: an instruction is that of its mnemonic and its elements, and its mnemonic is told by its number. -/
theorem decodeOfEncode : Obligations.DecodeOfEncode := by
  intro c i hopc hi
  obtain ⟨m, x1, x2, x3, x4, x5, rfl⟩ := exists_eq_instr i
  have hm : c.opcodeOf m < c.p := hopc.2 m (mem_all m)
  rw [encode_instr]
  exact decode_of_opcodeOf_eq hopc (tuple_wellFormed_iff.2 ⟨hm, (wellFormed_instr_iff m).1 hi⟩) rfl

/-- Settles O2. -/
theorem encodeOfDecode : Obligations.EncodeOfDecode := by
  intro c u i hd
  refine ⟨?_, wellFormed_of_decode hd⟩
  obtain ⟨-, m, hm, rfl⟩ := decode_eq_ok_iff.1 hd
  rw [encode_instr, opcodeOf_of_mnemonicOf hm]

/-- Settles O3. -/
theorem decodeRejectsExactlyUnknownOpcodes : Obligations.DecodeRejectsExactlyUnknownOpcodes := by
  intro c u
  constructor
  · intro hlt
    have hu : u.wellFormed c.p = true := tuple_wellFormed_iff.2 hlt
    exact ⟨decode_eq_opcodeUnknown_iff hu, exists_decode_eq_ok_iff hu⟩
  · intro hle
    refine decode_of_not_wellFormed fun hu => ?_
    have := tuple_wellFormed_iff.1 hu
    omega

/-- Settles O4. -/
theorem sampleGroupsDecode : Obligations.SampleGroupsDecode := by
  unfold Obligations.SampleGroupsDecode
  decide

/-! ### Assembly lines -/

theorem asmMnemonic_asmName (m : Mnemonic) : asmMnemonic (asmName m) = some m := by
  cases m <;> decide

theorem asmOperand_natCast {p k : Nat} (hk : k < p) : asmOperand p k = some k := by
  simp [asmOperand, hk]

/-- The operand `-k` is the element that `-k` is in F (R87). -/
theorem asmOperand_neg {p k : Nat} (h0 : 0 < k) (hk : k < p) : asmOperand p (-k) = some (p - k) := by
  have hneg : ¬ (0 ≤ -(k : Int) ∧ -(k : Int) < p) := by omega
  have hrange : -(p : Int) < -k ∧ -(k : Int) < 0 := by omega
  rw [asmOperand, if_neg hneg, if_pos hrange]
  congr 1
  omega

/-- Adding `p - k` in F is a jump back by `k` (R87). -/
theorem feAdd_sub_eq {p k pc : Nat} (hk : k < p) (hle : k ≤ pc) (hpc : pc < p) : feAdd p pc (p - k) = pc - k := by
  have hsum : pc + (p - k) = (pc - k) + p := by omega
  rw [feAdd, hsum, Nat.add_mod_right, Nat.mod_eq_of_lt (by omega)]

/-- Settles O5. -/
theorem assemblyNamesTheInstruction : Obligations.AssemblyNamesTheInstruction := by
  intro p
  refine ⟨fun m a b c d e ha hb hc hd he => ?_, rfl, rfl,
    fun k h0 hk => ⟨asmOperand_neg h0 hk, fun pc hle hpc => feAdd_sub_eq hk hle hpc⟩⟩
  simp [assemble, asmMnemonic_asmName, asmOperand_natCast, ha, hb, hc, hd, he]

/-- Settles O6: a line is told by the mnemonic of its name. -/
theorem aliasesNameTheSameInstruction : Obligations.AliasesNameTheSameInstruction := by
  intro p a b c d e
  have hlw : asmMnemonic "LW" = asmMnemonic "LOADW" := by decide
  have hsw : asmMnemonic "SW" = asmMnemonic "STOREW" := by decide
  simp only [assemble, hlw, hsw, and_self]

/-! ### Immediates -/

/-- Every pair that a launch admits keeps the contract of R42. -/
theorem conversionOk_of_admitted {c : Config} (hsize : 1 ≤ c.wordSize) (h : conversionAdmitted c = true) :
    ConversionOk c := by
  intro x hx
  by_cases h1 : c.wordSize = 1
  · rw [decompose_of_wordSize_eq_one h1, compose_of_wordSize_eq_one h1 hx]
  cases hc : c.conversion with
  | limbs limbBits =>
    exact compose_decompose_limbs hc h1 (by simpa [conversionAdmitted, h1, hc] using h) hx
  | firstElement =>
    obtain ⟨n, hn⟩ := Nat.exists_eq_add_of_le' hsize
    have hhead : (decompose c x).headD 0 = x := by
      simp [decompose, decomposeElem, hn, hc, List.range_succ_eq_map]
    simp only [compose, h1, if_false, hc, hhead, Nat.mod_eq_of_lt hx]
  | other id =>
    have hok : ConversionOk c := by simpa [conversionAdmitted, h1, hc] using h
    exact hok x hx

theorem State.readFe_immediate {s : State} (hok : ConversionOk s.cfg) {x : Nat} (hx : x < s.cfg.p) :
    s.readFe 0 x = .ok x := by
  rw [State.readFe_of_readWord_ok (s.readWord_immediate x), hok x hx]

/-- Settles O8. -/
theorem immediateReadsItself : Obligations.ImmediateReadsItself := fun s x hsize hadm hx =>
  ⟨s.readWord_immediate x, State.readFe_immediate (conversionOk_of_admitted hsize hadm) hx⟩

/-! ### Fetch and dispatch -/

section Step

variable {s : State} {u : Tuple}

theorem fetchTuple_of_misaligned (h : s.pc % s.cfg.instWidth ≠ 0) : fetchTuple s = .error .fetch := if_pos h

theorem fetchTuple_of_pastEnd (h : s.program.length ≤ s.pc / s.cfg.instWidth) : fetchTuple s = .error .fetch := by
  simp [fetchTuple, List.getElem?_eq_none h]

/-- A running machine that fetches no group raises the fault of the fetch (R81, R170). -/
theorem step_of_fetchTuple_error {n : FaultName} (hs : s.status = .running) (hf : fetchTuple s = .error n) :
    step s = .next (s.raise n) := by
  simp [step, nextInstr, hs, hf]

theorem step_of_opcodeUnknown {x : Nat} (hs : s.status = .running) (hf : fetchTuple s = .ok u)
    (hd : decode s.cfg u = .error (.opcodeUnknown x)) : step s = .next (s.raise .opcodeUnknown) := by
  simp [step, nextInstr, hs, hf, hd]

theorem step_of_not_runnable {i : Instr} (hs : s.status = .running) (hf : fetchTuple s = .ok u)
    (hd : decode s.cfg u = .ok i) (hr : ¬ runnable s.cfg i.mnemonic = true) :
    step s = .next (s.raise .opcodeDisabled) := by
  simp [step, nextInstr, hs, hf, hd, hr]

end Step

/-- Settles O16. -/
theorem fetchFollowsProgramCounter : Obligations.FetchFollowsProgramCounter := by
  intro s hs _
  refine ⟨fun hmis => ?_, fun halign => ⟨fun hend => ?_, fun hlt => ?_⟩⟩
  · exact step_of_fetchTuple_error hs (fetchTuple_of_misaligned hmis)
  · exact step_of_fetchTuple_error hs (fetchTuple_of_pastEnd hend)
  · exact fetchTuple_eq_ok_iff.2 ⟨halign, List.getElem?_eq_getElem hlt⟩

/-- Settles O17. -/
theorem dispatchFollowsEnabled : Obligations.DispatchFollowsEnabled := by
  intro s u hs hf hu hopc
  refine ⟨fun hnone => ?_, fun m hm => ?_⟩
  · exact step_of_opcodeUnknown hs hf ((decode_eq_opcodeUnknown_iff hu).2 hnone)
  have hd : decode s.cfg u = .ok (m.instr u.a u.b u.c u.d u.e) := decode_of_opcodeOf_eq hopc hu hm
  constructor
  · intro hfail hprintf hdis
    exact step_of_not_runnable hs hf hd (by simp [runnable_iff, hfail, hprintf, hdis])
  · intro hrun
    exact step_of_nextInstr (nextInstr_eq_ok_iff.2 ⟨hs, u, hf, hd, by rwa [mnemonic_instr, runnable_iff]⟩)

/-! ### Destinations that cannot be written -/

/-- The computation faults. -/
abbrev NeverAnswers {α : Type} (r : Except FaultName α) : Prop := Answers (fun _ => False) r

section Faults

variable {α β : Type} {s : State} {q a b c d e : Nat}

/-- A computation whose first part faults, faults. -/
theorem NeverAnswers.bind {r : Except FaultName α} (h : NeverAnswers r) (f : α → Except FaultName β) :
    NeverAnswers (r >>= f) := Answers.bind h fun _ => False.elim

/-- A meaning that ends in `commit` and whose result is a fault raises it (R170). -/
theorem NeverAnswers.commit {r : Except FaultName State} (h : NeverAnswers r) :
    ∃ n, s.commit r = .next (s.raise n) := by
  cases r with
  | ok t => exact (h t rfl).elim
  | error n => exact ⟨n, rfl⟩

/-! A write to the immediates faults (R47): of one word, of at least one, and of a destination whose space is checked
whatever its words (R82, R155). -/

theorem writeWord_immediate_faults (w : Word) : NeverAnswers (s.writeWord 0 q w) := .error

theorem writeFe_immediate_faults (v : Nat) : NeverAnswers (s.writeFe 0 q v) := .error

theorem writeFes_immediate_faults {vs : List Nat} (h : vs ≠ []) : NeverAnswers (s.writeFes 0 q vs) := by
  cases vs with
  | nil => exact absurd rfl h
  | cons v vs => exact .error

theorem writeExt_immediate_faults (x : Ext) : NeverAnswers (s.writeExt 0 q x) := writeFes_immediate_faults (by simp)

theorem writeDest_immediate_faults (ws : List Word) : NeverAnswers (s.writeDest 0 q ws) := .error

theorem execLoadw_immediate_faults : ∃ n, execLoadw a b c 0 e s = .next (s.raise n) :=
  NeverAnswers.commit (.after fun _ => .after fun w => (writeWord_immediate_faults w).bind _)

theorem execStorew_immediate_faults : ∃ n, execStorew a b c d 0 s = .next (s.raise n) :=
  NeverAnswers.commit (.after fun _ => .after fun w => (writeWord_immediate_faults w).bind _)

theorem execJal_immediate_faults : ∃ n, execJal a b 0 s = .next (s.raise n) :=
  NeverAnswers.commit ((writeFe_immediate_faults _).bind _)

theorem fieldOp_immediate_faults {op : Nat → Nat → Except FaultName Nat} :
    ∃ n, s.fieldOp a b c 0 e op = .next (s.raise n) :=
  NeverAnswers.commit (.after fun _ => .after fun _ => .after fun z => (writeFe_immediate_faults z).bind _)

theorem extOp_immediate_faults {op : Ext → Ext → Ext} :
    ∃ n, s.extOp a b c 0 e op = .next (s.raise n) :=
  NeverAnswers.commit (.after fun _ => .after fun _ => (writeExt_immediate_faults _).bind _)

theorem execBbe4inv_immediate_faults : ∃ n, execBbe4inv a b 0 s = .next (s.raise n) := by
  refine NeverAnswers.commit (.after fun x => ?_)
  split
  · exact .error
  · exact (writeExt_immediate_faults _).bind _

theorem execShintw_immediate_faults : ∃ n, execShintw a b d 0 s = .next (s.raise n) := by
  refine NeverAnswers.commit (.after fun addr => ?_)
  split
  · exact .error
  · exact (writeWord_immediate_faults _).bind _

section Hash

variable {perm : List Nat → List Nat}

theorem compressWith_immediate_faults (hperm : ∀ l, (perm l).take chunk ≠ []) :
    NeverAnswers (s.compressWith perm a b c d 0) :=
  .after fun _ => .after fun _ => .after fun _ => .after fun _ => .after fun _ =>
    (writeFes_immediate_faults (hperm _)).bind _

theorem permuteWith_immediate_faults (hperm : ∀ l, perm l ≠ []) : NeverAnswers (s.permuteWith perm a b c d 0) := by
  unfold State.permuteWith
  split
  · exact .error
  · exact .after fun _ => .after fun _ => .after fun _ => (writeFes_immediate_faults (hperm _)).bind _

theorem keccakWith_immediate_faults : NeverAnswers (s.keccakWith perm a b c d 0) := by
  unfold State.keccakWith
  split
  · exact .error
  · split
    · exact .error
    · exact .after fun _ => .after fun _ => .after fun _ => (writeDest_immediate_faults _).bind _

end Hash

@[simp] theorem poseidon2Perm_length (p : Nat) (l : List Nat) : (poseidon2Perm p l).length = poseidonWidth := by
  simp [poseidon2Perm]

theorem execCompressPoseidon2_immediate_faults : ∃ n, execCompressPoseidon2 a b c d 0 s = .next (s.raise n) := by
  refine (compressWith_immediate_faults fun l => List.ne_nil_of_length_pos ?_).commit
  simp [chunk, poseidonWidth]

theorem execPermPoseidon2_immediate_faults : ∃ n, execPermPoseidon2 a b c d 0 s = .next (s.raise n) := by
  refine (permuteWith_immediate_faults fun l => List.ne_nil_of_length_pos ?_).commit
  simp [poseidonWidth]

theorem execPermKeccak_immediate_faults : ∃ n, execPermKeccak a b c d 0 s = .next (s.raise n) :=
  keccakWith_immediate_faults.commit

end Faults

/-- Settles O30: each of these instructions ends by writing to the immediates, unless it has faulted before. -/
theorem destinationInImmediatesFaults : Obligations.DestinationInImmediatesFaults := by
  rintro s i (⟨a, b, c, e, hi⟩ | ⟨a, b, c, d, hi⟩) <;> simp only [List.mem_cons, List.not_mem_nil, or_false] at hi
  · obtain rfl | rfl | rfl | rfl | rfl | rfl | rfl | rfl | rfl | rfl := hi
    · exact execLoadw_immediate_faults
    · exact execJal_immediate_faults
    iterate 4 exact fieldOp_immediate_faults
    iterate 3 exact extOp_immediate_faults
    · exact execBbe4inv_immediate_faults
  · obtain rfl | rfl | rfl | rfl | rfl := hi
    · exact execStorew_immediate_faults
    · exact execShintw_immediate_faults
    · exact execCompressPoseidon2_immediate_faults
    · exact execPermPoseidon2_immediate_faults
    · exact execPermKeccak_immediate_faults

/-! ### Unused elements -/

/-- Settles O29: dispatch drops the elements that an instruction does not use (R76). -/
theorem unusedElementsAreIgnored : Obligations.UnusedElementsAreIgnored :=
  fun _ _ _ _ _ _ _ _ _ _ _ => ⟨rfl, rfl, rfl, rfl, rfl, rfl, rfl, rfl, rfl⟩

/-! ### The idioms of R86 -/

@[simp] theorem wordEq_self (w : Word) : wordEq w w = true := by
  induction w with
  | nil => rfl
  | cons v w ih => simp [wordEq, ih]

section Idioms

variable {s : State} {r k v : Nat}

/-- What the end of an instruction that writes the word `w` to register `r` does: the word is stored, `pc` is moved, and
nothing else changes. -/
theorem State.putWord_jumpBy_effect {w : Word} (hm : s.regs.wf) (hw : w.length = s.cfg.wordSize) (offset : Nat) :
    s.StoresWord ((s.putWord 1 r w).jumpBy offset) 1 r w ∧
      ((s.putWord 1 r w).jumpBy offset).pc = (s.pc + offset) % s.cfg.p ∧
      s.SameBesides ((s.putWord 1 r w).jumpBy offset) := by
  refine ⟨State.putWord_storesWord (.inl rfl) hm hw, ?_, ?_⟩
  · simp [feAdd]
  · simp [State.SameBesides, State.SameLaunch]

/-- A register written with the decomposition of an element reads as that element (R42, R55). -/
theorem State.readFe_putWord (hok : ConversionOk s.cfg) (hm : s.regs.wf) (hf : writeFault s.cfg 1 r = none)
    (hv : v < s.cfg.p) : (s.putWord 1 r (decompose s.cfg v)).readFe 1 r = .ok v := by
  have hwrite : s.writeWord 1 r (decompose s.cfg v) = .ok (s.putWord 1 r (decompose s.cfg v)) :=
    State.writeWord_eq_ok_iff.2 ⟨hf, rfl⟩
  have hread := (readAfterWrite s _ 1 r _ hm (decompose_length v) hwrite).1
  rw [State.readFe_of_readWord_ok hread, State.putWord_cfg, hok v hv]

/-- From `s` to `t`, the element `v` is put into register `r`, the machine advances, and nothing else changes. -/
abbrev State.SetsRegister (s t : State) (r v : Nat) : Prop :=
  s.StoresWord t 1 r (decompose s.cfg v) ∧ t.readFe 1 r = .ok v ∧ t.pc = (s.pc + s.cfg.instWidth) % s.cfg.p ∧
    s.SameBesides t

theorem State.setsRegister_putWord (hok : ConversionOk s.cfg) (hm : s.regs.wf) (hf : writeFault s.cfg 1 r = none)
    (hv : v < s.cfg.p) : s.SetsRegister (s.putWord 1 r (decompose s.cfg v)).advance r v := by
  obtain ⟨stores, hpc, same⟩ := State.putWord_jumpBy_effect (r := r) hm (decompose_length v) s.cfg.instWidth
  rw [State.advance_eq_jumpBy, State.putWord_cfg]
  exact ⟨stores, State.readFe_putWord hok hm hf hv, hpc, same⟩

/-- STOREW of an immediate to an immediate address stores its decomposition there. -/
theorem execStorew_immediate (hok : ConversionOk s.cfg) (hr : r < s.cfg.p) (hf : writeFault s.cfg 1 r = none) :
    execStorew k r 0 0 1 s = .next (s.putWord 1 r (decompose s.cfg k)).advance := by
  have hbase : s.readFe 0 0 = .ok 0 := State.readFe_immediate hok (by omega)
  have haddr : s.basePlusOffset 0 0 r = .ok r := by simp [State.basePlusOffset, hbase, feAdd, Nat.mod_eq_of_lt hr]
  simp [execStorew, haddr, State.writeWord, hf]

/-- FADD of a register and an immediate puts their sum into a register. -/
theorem execFadd_immediate (hok : ConversionOk s.cfg) {r' : Nat} (hv : s.readFe 1 r' = .ok v) (hk : k < s.cfg.p)
    {z : Nat} (hz : feAdd s.cfg.p v k = z) (hf : writeFault s.cfg 1 r = none) :
    execFadd r r' k 1 0 s = .next (s.putWord 1 r (decompose s.cfg z)).advance := by
  have himm : s.readFe 0 k = .ok k := State.readFe_immediate hok hk
  simp [execFadd, State.fieldOp, hv, himm, hz, State.writeFe, State.writeWord, hf]

/-- JAL with a writable register stores the address of the next instruction there and jumps. -/
theorem execJal_register (offset : Nat) (hf : writeFault s.cfg 1 r = none) :
    execJal r offset 1 s =
      .next ((s.putWord 1 r (decompose s.cfg (feAdd s.cfg.p s.pc s.cfg.instWidth))).jumpBy offset) := by
  simp [execJal, State.writeFe, State.writeWord, hf]

/-- A branch that compares an immediate with itself does not depend on the state. -/
theorem branch_immediate_self (x offset : Nat) (taken : Bool → Bool) :
    s.branch x x offset 0 0 taken = .next (if taken true then s.jumpBy offset else s.advance) := by
  simp [State.branch]

end Idioms

/-- Settles O60. -/
theorem idiomsDoWhatTheyAreFor : Obligations.IdiomsDoWhatTheyAreFor := by
  intro s hsize hadm hm hp
  have hok : ConversionOk s.cfg := conversionOk_of_admitted hsize hadm
  have hp0 : 0 < s.cfg.p := by omega
  refine ⟨fun k r hk hr hf => ?_, fun offset => ?_, ?_, fun r r' v hv hf => ?_, fun r r' k hk h0 hf => ?_,
    fun r offset hf => ?_⟩
  · exact ⟨_, execStorew_immediate hok hr hf, State.setsRegister_putWord hok hm hf hk⟩
  · exact branch_immediate_self 0 offset fun eq => eq
  · exact branch_immediate_self 0 0 fun eq => !eq
  · have hlt : v < s.cfg.p := State.readFe_lt hp0 hv
    have hsum : feAdd s.cfg.p v 0 = v := Nat.mod_eq_of_lt hlt
    exact ⟨_, execFadd_immediate hok hv hp0 hsum hf, State.setsRegister_putWord hok hm hf hlt⟩
  · have hsum : feAdd s.cfg.p 0 k = k := by rw [feAdd, Nat.zero_add, Nat.mod_eq_of_lt hk]
    exact ⟨_, execFadd_immediate hok h0 hk hsum hf, State.setsRegister_putWord hok hm hf hk⟩
  · exact ⟨_, execJal_register offset hf, State.putWord_jumpBy_effect hm (decompose_length _) offset⟩

end Sys2Proof.Machine
end

section
/-! PROOFS of the statements about the core instructions (spec/40_core.md): loads and stores, jumps and branches, the
end of the run, hints and public values.

A meaning is a chain of reads, checks and at most one write, closed by `commit`. The chain is followed link by link:
`State.commit_bind_ok` passes a read that answers, `State.commit_bind_error` ends the chain at the first fault. What a
write leaves behind is `State.putWord`, whose effect and frame are `State.putWord_advance_storesWord`. -/

namespace Sys2Proof.Machine

variable {s t : State} {a b c d e : Nat}

/-! ### The links of a meaning -/

section Links

variable {α : Type} {r : Except FaultName α} {k : α → Except FaultName State}

theorem State.commit_bind_ok {x : α} (h : r = .ok x) : s.commit (r >>= k) = s.commit (k x) := by
  rw [h, ok_bind]

/-- The first fault of a chain is the one raised, with nothing else changed (R170, R172). -/
theorem State.commit_bind_error {f : FaultName} (h : r = .error f) : s.commit (r >>= k) = .next (s.raise f) := by
  rw [h, error_bind, State.commit_error]

variable {ptr offset : Nat}

theorem State.basePlusOffset_of_readFe_ok {base : Nat} (h : s.readFe d ptr = .ok base) :
    s.basePlusOffset d ptr offset = .ok (feAdd s.cfg.p base offset) := by simp [State.basePlusOffset, h]

theorem State.basePlusOffset_of_readFe_error {f : FaultName} (h : s.readFe d ptr = .error f) :
    s.basePlusOffset d ptr offset = .error f := by simp [State.basePlusOffset, h]

/-- Every word read, an immediate included, has `WORD_SIZE` elements. -/
theorem State.readWord_length {as : Nat} {w : Word} (h : s.readWord as ptr = .ok w) : w.length = s.cfg.wordSize := by
  by_cases h0 : as = 0
  · subst h0; cases h; exact decompose_length ptr
  · obtain ⟨-, -, -, hlen, -⟩ := (State.readWord_eq_ok_iff h0).1 h
    exact hlen

end Links

/-! ### The write at the end of a meaning -/

section Store

variable {as ptr : Nat} {w : Word}

/-- A write that passes its checks stores the word, and the rest of the meaning goes on from there. -/
theorem State.commit_writeWord (hf : writeFault s.cfg as ptr = none) (k : State → State) :
    s.commit (s.writeWord as ptr w >>= fun u => .ok (k u)) = .next (k (s.putWord as ptr w)) :=
  State.commit_bind_ok (State.writeWord_eq_ok_iff.2 ⟨hf, rfl⟩)

/-- A word stored in either address space and `pc` moved: the word is there, and nothing else has changed. -/
theorem State.putWord_jumpBy_storesWord (hf : writeFault s.cfg as ptr = none) (hm : (s.space as).wf)
    (hw : w.length = s.cfg.wordSize) (offset : Nat) :
    s.StoresWord ((s.putWord as ptr w).jumpBy offset) as ptr w ∧
      ((s.putWord as ptr w).jumpBy offset).pc = feAdd s.cfg.p s.pc offset ∧
      s.SameBesides ((s.putWord as ptr w).jumpBy offset) := by
  obtain ⟨has, -⟩ := writeFault_eq_none_iff.1 hf
  exact ⟨State.putWord_storesWord has hm hw, by simp, by simp [State.SameBesides, State.SameLaunch]⟩

theorem State.putWord_advance_storesWord (hf : writeFault s.cfg as ptr = none) (hm : (s.space as).wf)
    (hw : w.length = s.cfg.wordSize) :
    s.StoresWord (s.putWord as ptr w).advance as ptr w ∧
      (s.putWord as ptr w).advance.pc = feAdd s.cfg.p s.pc s.cfg.instWidth ∧
      s.SameBesides (s.putWord as ptr w).advance := by
  rw [State.advance_eq_jumpBy, State.putWord_cfg]
  exact State.putWord_jumpBy_storesWord hf hm hw s.cfg.instWidth

end Store

/-! ### LOADW and STOREW -/

/-- LOADW after its reads: the word is written at `a` in `d`. -/
theorem execLoadw_of_reads {base : Nat} {w : Word} (hbase : s.readFe d c = .ok base)
    (hw : s.readWord e (feAdd s.cfg.p base b) = .ok w) :
    execLoadw a b c d e s = s.commit (s.writeWord d a w >>= fun u => .ok u.advance) :=
  (State.commit_bind_ok (State.basePlusOffset_of_readFe_ok hbase)).trans (State.commit_bind_ok hw)

/-- STOREW after its reads: the word is written at base plus offset in `e`. -/
theorem execStorew_of_reads {base : Nat} {w : Word} (hbase : s.readFe d c = .ok base)
    (hw : s.readWord d a = .ok w) :
    execStorew a b c d e s = s.commit (s.writeWord e (feAdd s.cfg.p base b) w >>= fun u => .ok u.advance) :=
  (State.commit_bind_ok (State.basePlusOffset_of_readFe_ok hbase)).trans (State.commit_bind_ok hw)

/-- Settles O35. -/
theorem loadwLoadsAWord : Obligations.LoadwLoadsAWord := by
  intro s a b c d e
  refine ⟨fun base w hbase hw hf hm => ?_, fun f hbase => ?_, fun base f hbase hw => ?_,
    fun base w f hbase hw hf => ?_⟩
  · exact ⟨_, (execLoadw_of_reads hbase hw).trans (State.commit_writeWord hf State.advance),
      State.putWord_advance_storesWord hf hm (State.readWord_length hw)⟩
  · exact State.commit_bind_error (State.basePlusOffset_of_readFe_error hbase)
  · exact (State.commit_bind_ok (State.basePlusOffset_of_readFe_ok hbase)).trans (State.commit_bind_error hw)
  · exact (execLoadw_of_reads hbase hw).trans (State.commit_bind_error (State.writeWord_of_writeFault hf w))

/-- Settles O36. -/
theorem storewStoresAWord : Obligations.StorewStoresAWord := by
  intro s a b c d e
  refine ⟨fun base w hbase hw hf hm => ?_, fun f hbase => ?_, fun base f hbase hw => ?_,
    fun base w f hbase hw hf => ?_⟩
  · exact ⟨_, (execStorew_of_reads hbase hw).trans (State.commit_writeWord hf State.advance),
      State.putWord_advance_storesWord hf hm (State.readWord_length hw)⟩
  · exact State.commit_bind_error (State.basePlusOffset_of_readFe_error hbase)
  · exact (State.commit_bind_ok (State.basePlusOffset_of_readFe_ok hbase)).trans (State.commit_bind_error hw)
  · exact (execStorew_of_reads hbase hw).trans (State.commit_bind_error (State.writeWord_of_writeFault hf w))

/-! ### JAL, BEQ and BNE -/

/-- Settles O37. -/
theorem jalLinksAndJumps : Obligations.JalLinksAndJumps := by
  intro s a b c d e
  refine ⟨fun hf hm => ?_, fun f hf => ?_⟩
  · exact ⟨_, State.commit_writeWord hf (State.jumpBy · b),
      State.putWord_jumpBy_storesWord hf hm (decompose_length _) b⟩
  · exact State.commit_bind_error (State.writeWord_of_writeFault hf _)

/-- Settles O14, along the recursion of `wordEq`. -/
theorem wordEqualityIsElementwise : Obligations.WordEqualityIsElementwise := by
  intro v
  induction v with
  | nil => intro w; cases w <;> simp [wordEq]
  | cons x v ih =>
    intro w
    cases w with
    | nil => simp [wordEq]
    | cons y w => simp [wordEq, ih]

section Branch

variable {x y : Word} {offset : Nat} (taken : Bool → Bool)

/-- A branch whose two words can be read compares them (R106). -/
theorem State.branch_of_reads (hx : s.readWord d a = .ok x) (hy : s.readWord e b = .ok y) :
    s.branch a b offset d e taken = .next (if taken (wordEq x y) then s.jumpBy offset else s.advance) :=
  (State.commit_bind_ok hx).trans (State.commit_bind_ok hy)

theorem State.branch_of_eq (hx : s.readWord d a = .ok x) (hy : s.readWord e b = .ok y) (h : x = y) :
    s.branch a b offset d e taken = .next (if taken true then s.jumpBy offset else s.advance) := by
  rw [State.branch_of_reads taken hx hy, (wordEqualityIsElementwise x y).2 h]

theorem State.branch_of_ne (hx : s.readWord d a = .ok x) (hy : s.readWord e b = .ok y) (h : x ≠ y) :
    s.branch a b offset d e taken = .next (if taken false then s.jumpBy offset else s.advance) := by
  have hne : wordEq x y = false := by rwa [Bool.eq_false_iff, Ne, wordEqualityIsElementwise x y]
  rw [State.branch_of_reads taken hx hy, hne]

theorem State.branch_of_first_error {f : FaultName} (hx : s.readWord d a = .error f) :
    s.branch a b offset d e taken = .next (s.raise f) := State.commit_bind_error hx

theorem State.branch_of_second_error {f : FaultName} (hx : s.readWord d a = .ok x)
    (hy : s.readWord e b = .error f) : s.branch a b offset d e taken = .next (s.raise f) :=
  (State.commit_bind_ok hx).trans (State.commit_bind_error hy)

end Branch

/-- Settles O38. -/
theorem beqBranchesOnEqualWords : Obligations.BeqBranchesOnEqualWords := by
  intro s a b c d e
  refine ⟨fun x y hx hy => ⟨fun heq => ?_, fun hne => ?_⟩, fun f hx => ?_, fun x f hx hy => ?_⟩
  · exact State.branch_of_eq (fun eq => eq) hx hy heq
  · exact State.branch_of_ne (fun eq => eq) hx hy hne
  · exact State.branch_of_first_error (fun eq => eq) hx
  · exact State.branch_of_second_error (fun eq => eq) hx hy

/-- Settles O39. -/
theorem bneBranchesOnDifferentWords : Obligations.BneBranchesOnDifferentWords := by
  intro s a b c d e
  refine ⟨fun x y hx hy => ⟨fun hne => ?_, fun heq => ?_⟩, fun f hx => ?_, fun x f hx hy => ?_⟩
  · exact State.branch_of_ne (fun eq => !eq) hx hy hne
  · exact State.branch_of_eq (fun eq => !eq) hx hy heq
  · exact State.branch_of_first_error (fun eq => !eq) hx
  · exact State.branch_of_second_error (fun eq => !eq) hx hy

/-! ### TERMINATE, SHINTW and PUBLISH -/

/-- Settles O40. -/
theorem terminateEndsTheRun : Obligations.TerminateEndsTheRun := fun _ _ _ _ _ _ => rfl

/-- SHINTW after its pointer read, with a hint word left: the word is written, and popped with the write. -/
theorem execShintw_of_hint {ptr : Nat} {w : Word} {rest : List Word} (hptr : s.readFe d a = .ok ptr)
    (hhint : s.hintStream = w :: rest) :
    execShintw a b d e s =
      s.commit (s.writeWord e (feAdd s.cfg.p ptr b) w >>= fun u => .ok { u.advance with hintStream := rest }) := by
  simp only [execShintw, State.basePlusOffset_of_readFe_ok hptr, ok_bind, hhint]

theorem execShintw_of_no_hint {ptr : Nat} (hptr : s.readFe d a = .ok ptr) (hhint : s.hintStream = []) :
    execShintw a b d e s = .next (s.raise .hintEmpty) := by
  simp only [execShintw, State.basePlusOffset_of_readFe_ok hptr, ok_bind, hhint, State.commit_error]

/-- Settles O41. The stream is no part of an address space, so that popping a word leaves the store as it is. -/
theorem shintwStoresTheNextHint : Obligations.ShintwStoresTheNextHint := by
  intro s a b c d e
  refine ⟨fun ptr w rest hptr hhint hw hf hm => ?_, fun f hptr => ?_, fun ptr => execShintw_of_no_hint,
    fun ptr w rest f hptr hhint hf => ?_⟩
  · obtain ⟨stores, hpc, launch, -, inputs, printLog, verifiable, status, report⟩ :=
      State.putWord_advance_storesWord hf hm hw
    have hexec := (execShintw_of_hint hptr hhint).trans
      (State.commit_writeWord hf fun u => { u.advance with hintStream := rest })
    exact ⟨_, hexec, stores, rfl, hpc, launch, inputs, printLog, verifiable, status, report⟩
  · exact State.commit_bind_error (State.basePlusOffset_of_readFe_error hptr)
  · exact (execShintw_of_hint hptr hhint).trans (State.commit_bind_error (State.writeWord_of_writeFault hf w))

/-- PUBLISH after its reads: the check of the index, then the check of the value (R109). -/
theorem execPublish_of_reads {idx val : Nat} (hidx : s.readFe d a = .ok idx) (hval : s.readFe e b = .ok val) :
    execPublish a b d e s = s.commit
      (if s.cfg.numPublicValues ≤ idx then .error .publicIndex
      else if s.pv[idx]? = some val then .ok s.advance
      else .error .publicMismatch) :=
  (State.commit_bind_ok hidx).trans (State.commit_bind_ok hval)

/-- Settles O42. -/
theorem publishChecksAPublicValue : Obligations.PublishChecksAPublicValue := by
  intro s a b c d e
  refine ⟨fun idx val hidx hval => ?_, fun f hidx => ?_, fun idx f hidx hval => ?_⟩
  · have hexec := execPublish_of_reads hidx hval
    refine ⟨fun hle => ?_, fun hlt v hv => ⟨fun heq => ?_, fun hne => ?_⟩⟩
    · exact hexec.trans (by rw [if_pos hle]; rfl)
    · exact hexec.trans (by rw [if_neg (not_le.2 hlt), if_pos (heq ▸ hv)]; rfl)
    · have hother : s.pv[idx]? ≠ some val := by simpa [hv] using hne
      exact hexec.trans (by rw [if_neg (not_le.2 hlt), if_neg hother]; rfl)
  · exact State.commit_bind_error hidx
  · exact (State.commit_bind_ok hidx).trans (State.commit_bind_error hval)

/-! ### The phantom instructions -/

/-- From `s` to `t` the run goes on at the next instruction, and besides `pc` only the hint stream and the inputs
differ (R117). -/
def State.OnlyHints (s t : State) : Prop :=
  ∃ (hints : List Word) (inputs : List (List Word)), t = { s.advance with hintStream := hints, inputs := inputs }

theorem execHintInput_of_input {x : List Word} {rest : List (List Word)} (h : s.inputs = x :: rest) :
    execHintInput s = .next { s.advance with hintStream := x, inputs := rest } := by
  simp only [execHintInput, h, State.commit_ok]

theorem execHintInput_of_no_input (h : s.inputs = []) : execHintInput s = .next (s.raise .noInput) := by
  simp only [execHintInput, h, State.commit_error]

theorem execHintInput_onlyHints (ht : execHintInput s = .next t) : s.OnlyHints t ∨ ∃ f, t = s.raise f := by
  cases hin : s.inputs with
  | nil => rw [execHintInput_of_no_input hin] at ht; cases ht; exact .inr ⟨_, rfl⟩
  | cons x rest => rw [execHintInput_of_input hin] at ht; cases ht; exact .inl ⟨x, rest, rfl⟩

theorem execHintBits_onlyHints (ht : execHintBits a d s = .next t) : s.OnlyHints t ∨ ∃ f, t = s.raise f :=
  Answers.commit (.after fun _ => .ok ⟨_, s.inputs, rfl⟩) ht

/-- Settles O28. -/
theorem phantomInstructionsWriteNoMemory : Obligations.PhantomInstructionsWriteNoMemory := by
  intro s t i hi ht
  obtain ⟨m, a, b, c, d, e, rfl⟩ := exists_eq_instr i
  have heff : s.OnlyHints t ∨ ∃ f, t = s.raise f := by
    rw [mnemonic_instr] at hi
    rcases hi with rfl | rfl
    · exact execHintInput_onlyHints ht
    · exact execHintBits_onlyHints ht
  rcases heff with ⟨hints, inputs, rfl⟩ | ⟨f, rfl⟩
  · exact ⟨rfl, rfl, rfl, rfl, ⟨rfl, rfl, rfl⟩, .inl ⟨rfl, rfl⟩⟩
  · exact ⟨rfl, rfl, rfl, rfl, ⟨rfl, rfl, rfl⟩, .inr ⟨f, rfl⟩⟩

/-- Settles O43. -/
theorem hintInputTakesTheNextInput : Obligations.HintInputTakesTheNextInput := fun _ _ _ _ _ _ =>
  ⟨fun _ _ => execHintInput_of_input, execHintInput_of_no_input⟩

theorem bitOf_eq_testBit (v i : Nat) : bitOf v i = if v.testBit i then 1 else 0 := by
  rw [bitOf, ← Nat.toNat_testBit, Bool.toNat, Bool.cond_eq_ite]

/-- Settles O44. -/
theorem hintBitsGivesTheBits : Obligations.HintBitsGivesTheBits := by
  intro s a b c d e
  refine ⟨fun v hv => ⟨_, State.commit_bind_ok hv, by simp, fun i hi => ?_⟩, fun f => State.commit_bind_error⟩
  simp [hi, bitOf_eq_testBit]

/-- Settles O45: bits are limbs of one bit, and the first `n` of them are the value modulo `2 ^ n`. -/
theorem hintBitsDetermineTheValue : Obligations.HintBitsDetermineTheValue := by
  intro v n hv
  have hbits : limbSum 1 ((List.range n).map (bitOf v)) = v % 2 ^ n := by
    have h := limbSum_limbs 1 n v
    simp only [Nat.one_mul, pow_one] at h
    exact h
  rw [hbits, Nat.mod_eq_of_lt hv]

end Sys2Proof.Machine
end

section
/-! PROOFS of the statements about field arithmetic (spec/41_field_arithmetic.md): FADD, FSUB, FMUL and FDIV, and the
laws of division.

The laws of F are those of the field `ZMod p`: `feInv_cast` says that `inv` is the inverse there (Fermat), and `fe_ext`
brings an equation back to F. The four instructions are `State.fieldOp` with their own operation, and every clause about
them is a lemma about `State.fieldOp`. -/

namespace Sys2Proof.Machine

/-! ### The laws of F -/

section Laws

variable {p x y : Nat}

/-- Subtraction in F, written with natural numbers alone. -/
theorem feSub_eq (hp : 0 < p) (hy : y ≤ p) : feSub p x y = (x + (p - y)) % p := by
  refine fe_ext (feSub_lt hp x y) (Nat.mod_lt _ hp) ?_
  rw [feSub_cast hp, ZMod.natCast_mod, Nat.cast_add, Nat.cast_sub hy, ZMod.natCast_self, zero_sub, sub_eq_add_neg]

theorem fe_cast_ne_zero (h0 : 0 < y) (hy : y < p) : (y : ZMod p) ≠ 0 := fun h =>
  h0.ne' (fe_ext hy (h0.trans hy) (h.trans Nat.cast_zero.symm))

/-- `inv` is the inverse of the field `ZMod p`, by Fermat's little theorem. -/
theorem feInv_cast [Fact p.Prime] (h0 : 0 < y) (hy : y < p) : ((feInv p y : ℕ) : ZMod p) = (y : ZMod p)⁻¹ := by
  have htwo : 2 ≤ p := (Fact.out : p.Prime).two_le
  have hne := fe_cast_ne_zero h0 hy
  refine eq_inv_of_mul_eq_one_left ?_
  calc ((feInv p y : ℕ) : ZMod p) * y
      = (y : ZMod p) ^ (p - 2) * y := by rw [feInv_eq, ZMod.natCast_mod, Nat.cast_pow]
    _ = (y : ZMod p) ^ (p - 1) := by rw [← pow_succ, show p - 2 + 1 = p - 1 by omega]
    _ = 1 := ZMod.pow_card_sub_one_eq_one hne

end Laws

/-- Settles O48: each law is one of the field `ZMod p`. -/
theorem inverseIsTheOnlyInverse : Obligations.InverseIsTheOnlyInverse := by
  intro p x y hprime hx h0 hy
  have : Fact p.Prime := ⟨hprime⟩
  have hne := fe_cast_ne_zero h0 hy
  have hinv := feInv_cast h0 hy
  refine ⟨feInv_eq y, fe_ext (feMul_lt hprime.pos _ _) hprime.one_lt ?_, fe_ext (feMul_lt hprime.pos _ _) hx ?_,
    fun q hq hqy => fe_ext hq (feMul_lt hprime.pos _ _) ?_⟩
  · rw [feMul_cast, hinv, mul_inv_cancel₀ hne, Nat.cast_one]
  · rw [feMul_cast, feMul_cast, hinv, inv_mul_cancel_right₀ hne]
  · rw [← hqy, feMul_cast, feMul_cast, hinv, mul_inv_cancel_right₀ hne]

/-! ### What the four instructions share (R130) -/

section FieldOp

variable {s : State} {a b c d e x y z : Nat} {f : FaultName} {op : Nat → Nat → Except FaultName Nat}

theorem State.fieldOp_of_first_error (hx : s.readFe d b = .error f) :
    s.fieldOp a b c d e op = .next (s.raise f) := State.commit_bind_error hx

theorem State.fieldOp_of_second_error (hx : s.readFe d b = .ok x) (hy : s.readFe e c = .error f) :
    s.fieldOp a b c d e op = .next (s.raise f) :=
  (State.commit_bind_ok hx).trans (State.commit_bind_error hy)

/-- A fault of the operation itself is raised before the checks of the write. -/
theorem State.fieldOp_of_op_error (hx : s.readFe d b = .ok x) (hy : s.readFe e c = .ok y) (hop : op x y = .error f) :
    s.fieldOp a b c d e op = .next (s.raise f) :=
  (State.commit_bind_ok hx).trans ((State.commit_bind_ok hy).trans (State.commit_bind_error hop))

theorem State.fieldOp_of_op_ok (hx : s.readFe d b = .ok x) (hy : s.readFe e c = .ok y) (hop : op x y = .ok z) :
    s.fieldOp a b c d e op = s.commit (s.writeWord d a (decompose s.cfg z) >>= fun u => .ok u.advance) :=
  (State.commit_bind_ok hx).trans ((State.commit_bind_ok hy).trans (State.commit_bind_ok hop))

theorem State.fieldOp_of_writeFault (hx : s.readFe d b = .ok x) (hy : s.readFe e c = .ok y) (hop : op x y = .ok z)
    (hf : writeFault s.cfg d a = some f) : s.fieldOp a b c d e op = .next (s.raise f) :=
  (State.fieldOp_of_op_ok hx hy hop).trans (State.commit_bind_error (State.writeWord_of_writeFault hf _))

/-- An operation that answers, with a destination that can be written: the result is stored, and nothing else changes
but `pc`. -/
theorem State.fieldOp_storesWord (hx : s.readFe d b = .ok x) (hy : s.readFe e c = .ok y) (hop : op x y = .ok z)
    (hf : writeFault s.cfg d a = none) (hm : (s.space d).wf) :
    ∃ t, s.fieldOp a b c d e op = .next t ∧ s.StoresWord t d a (decompose s.cfg z) ∧
      t.pc = (s.pc + s.cfg.instWidth) % s.cfg.p ∧ s.SameBesides t :=
  ⟨_, (State.fieldOp_of_op_ok hx hy hop).trans (State.commit_writeWord hf State.advance),
    State.putWord_advance_storesWord hf hm (decompose_length z)⟩

end FieldOp

/-! ### The instructions -/

/-- Settles O46: each of the three is `State.fieldOp` with an operation that is `op` on elements of F. -/
theorem fieldAddSubMul : Obligations.FieldAddSubMul := by
  intro s a b c d e i op hp hi
  obtain ⟨fe, hexec, hfe⟩ : ∃ fe : Nat → Nat → Nat, exec i s = s.fieldOp a b c d e (fun x y => .ok (fe x y)) ∧
      ∀ x y, y < s.cfg.p → fe x y = op x y := by
    rcases hi with ⟨rfl, rfl⟩ | ⟨rfl, rfl⟩ | ⟨rfl, rfl⟩
    · exact ⟨feAdd s.cfg.p, rfl, fun _ _ _ => rfl⟩
    · exact ⟨feSub s.cfg.p, rfl, fun _ _ hy => feSub_eq hp hy.le⟩
    · exact ⟨feMul s.cfg.p, rfl, fun _ _ _ => rfl⟩
  refine ⟨fun x y hx hy hf hm => ?_, fun f hx => ?_, fun x f hx hy => ?_, fun x y f hx hy hf => ?_⟩
  · rw [hexec, ← hfe x y (State.readFe_lt hp hy)]
    exact State.fieldOp_storesWord hx hy rfl hf hm
  · exact hexec.trans (State.fieldOp_of_first_error hx)
  · exact hexec.trans (State.fieldOp_of_second_error hx hy)
  · exact hexec.trans (State.fieldOp_of_writeFault hx hy rfl hf)

/-- Settles O47; that the element stored is a quotient is the third law of `inverseIsTheOnlyInverse`. -/
theorem fdivDividesInTheField : Obligations.FdivDividesInTheField := by
  intro s a b c d e hprime
  refine ⟨fun x y hx hy => ⟨fun hne hf hm => ?_, fun hzero => ?_, fun f hne hf => ?_⟩, fun f hx => ?_,
    fun x f hx hy => ?_⟩
  · obtain ⟨-, -, hquot, -⟩ := inverseIsTheOnlyInverse _ x y hprime (State.readFe_lt hprime.pos hx)
      (Nat.pos_of_ne_zero hne) (State.readFe_lt hprime.pos hy)
    obtain ⟨t, hexec, heffect⟩ := State.fieldOp_storesWord (op := fun x y =>
      if y = 0 then .error .divZero else .ok (feMul s.cfg.p x (feInv s.cfg.p y))) hx hy (if_neg hne) hf hm
    exact ⟨_, t, hexec, feMul_lt hprime.pos _ _, hquot, heffect⟩
  · exact State.fieldOp_of_op_error hx hy (if_pos hzero)
  · exact State.fieldOp_of_writeFault hx hy (if_neg hne) hf
  · exact State.fieldOp_of_first_error hx
  · exact State.fieldOp_of_second_error hx hy

end Sys2Proof.Machine
end

section
/-! PROOFS about the words of a multi-word operand (spec/20_memory.md R52): several elements read, and several written.

`State.readFes` answers every element or faults as the first word that faults (`State.readFes_of_readsFes`,
`State.readFes_of_readFaults`). `State.writeFes` stores every element or faults as the first word that faults
(`State.writeFes_storesWords`, `State.writeFes_of_writeFaults`): aligned words at different addresses have no address
in common, so a word lasts unless a later one is written at its own address. -/

namespace Sys2Proof.Machine

variable {s : State} {as q : Nat}

/-! ### Several elements read -/

theorem State.readFes_of_readsFes {vs : List Nat} (h : s.ReadsFes as q vs) : s.readFes as q vs.length = .ok vs :=
  mapOk_range_eq_ok_iff.2 ⟨rfl, fun i _ x hx => h i x hx⟩

theorem State.readFes_of_readFaults {n : Nat} {f : FaultName} (h : s.ReadFaults as q n f) :
    s.readFes as q n = .error f := by
  obtain ⟨k, hk, hfirst, hf⟩ := h
  exact mapOk_range_eq_error hk hfirst hf

theorem State.lt_of_readsFes {vs : List Nat} (hp : 0 < s.cfg.p) (h : s.ReadsFes as q vs) : ∀ v ∈ vs, v < s.cfg.p := by
  intro v hv
  obtain ⟨i, hi⟩ := List.mem_iff_getElem?.1 hv
  exact State.readFe_lt hp (h i v hi)

/-! ### Several words written -/

theorem State.writeWordsFrom_cons {i : Nat} (hf : writeFault s.cfg as (wordAddr s.cfg q i) = none) (w : Word)
    (ws : List Word) :
    s.writeWordsFrom as q i (w :: ws) = (s.putWord as (wordAddr s.cfg q i) w).writeWordsFrom as q (i + 1) ws := by
  simp only [State.writeWordsFrom, State.writeWord_eq_ok_iff.2 ⟨hf, rfl⟩]

/-- Words that all pass their checks are written. -/
theorem State.writeWordsFrom_exists_ok {ws : List Word} {i : Nat}
    (hf : ∀ k < ws.length, writeFault s.cfg as (wordAddr s.cfg q (i + k)) = none) :
    ∃ t, s.writeWordsFrom as q i ws = .ok t := by
  induction ws generalizing s i with
  | nil => exact ⟨s, rfl⟩
  | cons w ws ih =>
    rw [State.writeWordsFrom_cons (i := i) (hf 0 (by simp))]
    refine ih fun k hk => ?_
    simpa [Nat.add_assoc, Nat.add_comm 1] using hf (k + 1) (by simpa using hk)

/-- The fault of the first word that fails its checks, whatever the words before it have stored. -/
theorem State.writeWordsFrom_eq_error {f : FaultName} {ws : List Word} {i k : Nat} (hk : k < ws.length)
    (hfirst : ∀ j < k, writeFault s.cfg as (wordAddr s.cfg q (i + j)) = none)
    (hf : writeFault s.cfg as (wordAddr s.cfg q (i + k)) = some f) : s.writeWordsFrom as q i ws = .error f := by
  induction ws generalizing s i k with
  | nil => cases hk
  | cons w ws ih =>
    cases k with
    | zero =>
      have hhead : s.writeWord as (wordAddr s.cfg q i) w = .error f := State.writeWord_of_writeFault hf w
      simp only [State.writeWordsFrom, hhead]
    | succ k =>
      rw [State.writeWordsFrom_cons (i := i) (hfirst 0 k.succ_pos)]
      refine ih (k := k) (by simpa using hk) (fun j hj => ?_) ?_
      · simpa [Nat.add_assoc, Nat.add_comm 1] using hfirst (j + 1) (by omega)
      · simpa [Nat.add_assoc, Nat.add_comm 1] using hf

theorem State.putWord_space_wf (hm : (s.space as).wf) (ptr : Nat) (w : Word) :
    ((s.putWord as ptr w).space as).wf := by
  rw [State.putWord, State.setSpace_space_same]
  exact Memory.writeRun_wf w hm ptr

/-- A word written is at its addresses afterwards, unless a later one was written at its own address. -/
theorem State.peek_writeWordsFrom_inside {t : State} {ws : List Word} {i k j : Nat} {w : Word}
    (hf : ∀ n < ws.length, writeFault s.cfg as (wordAddr s.cfg q (i + n)) = none)
    (hlen : ∀ w ∈ ws, w.length = s.cfg.wordSize) (hm : (s.space as).wf) (ht : s.writeWordsFrom as q i ws = .ok t)
    (hw : ws[k]? = some w)
    (hlast : ∀ k', k < k' → k' < ws.length → wordAddr s.cfg q (i + k') ≠ wordAddr s.cfg q (i + k))
    (hj : j < w.length) : t.peek as (wordAddr s.cfg q (i + k) + j) = w[j]? := by
  induction ws generalizing s i k with
  | nil => cases hw
  | cons v ws ih =>
    have hhead : writeFault s.cfg as (wordAddr s.cfg q i) = none := hf 0 (by simp)
    obtain ⟨has, halign, -⟩ := writeFault_eq_none_iff.1 hhead
    obtain ⟨hvlen, hwslen⟩ := List.forall_mem_cons.1 hlen
    rw [State.writeWordsFrom_cons hhead] at ht
    have hshift : ∀ k, i + 1 + k = i + (k + 1) := by omega
    cases k with
    | zero =>
      obtain rfl : v = w := by simpa using hw
      rw [Nat.add_zero, State.peek_writeWordsFrom_outside ht (by simpa using hwslen)]
      · exact State.peek_putWord_inside has hm hj
      · intro _ k hk
        obtain ⟨-, halign', -⟩ := writeFault_eq_none_iff.1 (hf (k + 1) (by simpa using hk))
        have hne := hlast (k + 1) k.succ_pos (by simpa using hk)
        have hdisjoint := aligned_words_disjoint halign' halign hne.symm (hvlen ▸ hj)
        simp only [InWord, State.putWord_cfg, hshift]
        omega
    | succ k =>
      have hk := ih (s := s.putWord as (wordAddr s.cfg q i) v) (i := i + 1) (k := k)
      simp only [State.putWord_cfg, hshift] at hk
      exact hk (fun k hk => hf (k + 1) (by simpa using hk)) hwslen (State.putWord_space_wf hm _ _) ht
        (by simpa using hw) (fun k' hk hk' => hlast (k' + 1) (by omega) (by simpa using hk'))

variable {vs : List Nat}

/-- Elements written to a destination that can be written are stored, and nothing else changes. -/
theorem State.writeFes_storesWords (hf : Writable s.cfg as q vs.length) (hm : (s.space as).wf) :
    ∃ t, s.writeFes as q vs = .ok t ∧ s.StoresWords t as q (vs.map (decompose s.cfg)) ∧ t.pc = s.pc ∧
      s.SameBesides t := by
  have hchecks : ∀ k < (vs.map (decompose s.cfg)).length, writeFault s.cfg as (wordAddr s.cfg q (0 + k)) = none := by
    simpa using hf
  have hlen : ∀ w ∈ vs.map (decompose s.cfg), w.length = s.cfg.wordSize := by simp
  obtain ⟨t, ht⟩ := State.writeWordsFrom_exists_ok hchecks
  obtain ⟨hsame, hpc⟩ := State.writeWordsFrom_same ht
  refine ⟨t, ht, ⟨fun k w hw hlast j hj => ?_, fun as' addr hout => ?_⟩, hpc, hsame⟩
  · simpa using State.peek_writeWordsFrom_inside hchecks hlen hm ht hw (by simpa using hlast) hj
  · exact State.peek_writeWordsFrom_outside ht hlen (by simpa using hout)

theorem State.writeFes_of_writeFaults {f : FaultName} (h : WriteFaults s.cfg as q vs.length f) :
    s.writeFes as q vs = .error f := by
  obtain ⟨k, hk, hfirst, hf⟩ := h
  exact State.writeWordsFrom_eq_error (by simpa using hk) (by simpa using hfirst) (by simpa using hf)

end Sys2Proof.Machine
end

section
/-! PROOFS of the statements about the extension field (spec/42_extension_field.md): the laws of its product and of its
inverse, and FE4ADD, FE4SUB, BBE4MUL and BBE4INV.

The coefficients of a product or of an inverse are those of R143 and R144 in `ZMod p` (`extMul_cast`, `extInv_cast`),
and `Ext.ext_of_cast` brings an equation of coefficients back to F. That `s` of R144 is 0 only for zero rests on 11 and
-11 having no square root in BabyBear (`eq_zero_of_extS_form_eq_zero`). The three binary instructions are `State.extOp` with
their own operation, and every clause about them is a lemma about `State.extOp`. -/

namespace Sys2Proof.Machine

/-! ### The laws of the product (R143) -/

section Product

variable {p : Nat} {x y : Ext}

theorem Ext.forall_mem_toList {P : Nat → Prop} : (∀ v ∈ x.toList, P v) ↔ P x.c0 ∧ P x.c1 ∧ P x.c2 ∧ P x.c3 := by
  simp [Ext.toList]

/-- Two extension elements over F are equal when their coefficients are equal in `ZMod p`. -/
theorem Ext.ext_of_cast (hx : ∀ v ∈ x.toList, v < p) (hy : ∀ v ∈ y.toList, v < p)
    (h0 : (x.c0 : ZMod p) = y.c0) (h1 : (x.c1 : ZMod p) = y.c1) (h2 : (x.c2 : ZMod p) = y.c2)
    (h3 : (x.c3 : ZMod p) = y.c3) : x = y := by
  obtain ⟨hx0, hx1, hx2, hx3⟩ := Ext.forall_mem_toList.1 hx
  obtain ⟨hy0, hy1, hy2, hy3⟩ := Ext.forall_mem_toList.1 hy
  cases x; cases y
  congr
  · exact fe_ext hx0 hy0 h0
  · exact fe_ext hx1 hy1 h1
  · exact fe_ext hx2 hy2 h2
  · exact fe_ext hx3 hy3 h3

/-- The four coefficients of the product, as R143 gives them in F. -/
theorem extMul_cast (hp : 0 < p) (x y : Ext) :
    ((extMul p x y).c0 : ZMod p) = x.c0 * y.c0 + 11 * (x.c1 * y.c3 + x.c2 * y.c2 + x.c3 * y.c1) ∧
    ((extMul p x y).c1 : ZMod p) = x.c0 * y.c1 + x.c1 * y.c0 + 11 * (x.c2 * y.c3 + x.c3 * y.c2) ∧
    ((extMul p x y).c2 : ZMod p) = x.c0 * y.c2 + x.c1 * y.c1 + x.c2 * y.c0 + 11 * x.c3 * y.c3 ∧
    ((extMul p x y).c3 : ZMod p) = x.c0 * y.c3 + x.c1 * y.c2 + x.c2 * y.c1 + x.c3 * y.c0 := by
  simp [extMul, toFe_cast hp]

theorem extMul_comm (hp : 0 < p) (x y : Ext) : extMul p x y = extMul p y x := by
  refine Ext.ext_of_cast (extMul_lt hp x y) (extMul_lt hp y x) ?_ ?_ ?_ ?_ <;> simp only [extMul_cast hp] <;> ring

theorem extMul_assoc (hp : 0 < p) (x y z : Ext) : extMul p (extMul p x y) z = extMul p x (extMul p y z) := by
  refine Ext.ext_of_cast (extMul_lt hp _ z) (extMul_lt hp x _) ?_ ?_ ?_ ?_ <;> simp only [extMul_cast hp] <;> ring

theorem extMul_one (hp : 0 < p) (hx : ∀ v ∈ x.toList, v < p) : extMul p x ⟨1, 0, 0, 0⟩ = x := by
  refine Ext.ext_of_cast (extMul_lt hp x _) hx ?_ ?_ ?_ ?_ <;> simp [extMul_cast hp]

theorem extMul_zero (hp : 0 < p) (x : Ext) : extMul p x ⟨0, 0, 0, 0⟩ = ⟨0, 0, 0, 0⟩ := by
  refine Ext.ext_of_cast (extMul_lt hp x _) (by simp [hp]) ?_ ?_ ?_ ?_ <;> simp [extMul_cast hp]

/-- The product is reduced by `x^4 = 11`. -/
theorem extMul_x_x3 (hp : 0 < p) : extMul p ⟨0, 1, 0, 0⟩ ⟨0, 0, 0, 1⟩ = ⟨11 % p, 0, 0, 0⟩ := by
  refine Ext.ext_of_cast (extMul_lt hp _ _) (by simp [hp, Nat.mod_lt]) ?_ ?_ ?_ ?_ <;> simp [extMul_cast hp]

/-- An element has at most one inverse. -/
theorem extMul_inverse_unique (hp : 0 < p) {u r r' : Ext} (hr : ∀ v ∈ r.toList, v < p) (hr' : ∀ v ∈ r'.toList, v < p)
    (h : extMul p u r = ⟨1, 0, 0, 0⟩) (h' : extMul p u r' = ⟨1, 0, 0, 0⟩) : r' = r :=
  calc r' = extMul p r' (extMul p u r) := by rw [h, extMul_one hp hr']
    _ = extMul p r (extMul p u r') := by rw [← extMul_assoc hp, extMul_comm hp r' u, extMul_comm hp]
    _ = r := by rw [h', extMul_one hp hr]

end Product

/-- Settles O53. -/
theorem extensionProductLaws : Obligations.ExtensionProductLaws := by
  intro p x y z hp h0 h1 h2 h3
  have hpos : 0 < p := Nat.zero_lt_of_lt hp
  exact ⟨extMul_comm hpos x y, extMul_assoc hpos x y z, extMul_one hpos (Ext.forall_mem_toList.2 ⟨h0, h1, h2, h3⟩),
    extMul_zero hpos x, extMul_x_x3 hpos⟩

/-! ### The derived inverse (R144) -/

section Inverse

variable {p : Nat}

theorem extN0_cast (hp : 0 < p) (u : Ext) :
    (extN0 p u : ZMod p) = u.c0 ^ 2 - 11 * (2 * u.c1 * u.c3 - u.c2 ^ 2) := by
  simp [extN0, toFe_cast hp, pow_two]

theorem extN2_cast (hp : 0 < p) (u : Ext) :
    (extN2 p u : ZMod p) = 2 * u.c0 * u.c2 - u.c1 ^ 2 - 11 * u.c3 ^ 2 := by
  simp [extN2, toFe_cast hp, pow_two, mul_assoc]

theorem extS_cast (hp : 0 < p) (u : Ext) :
    (extS p u : ZMod p) = (extN0 p u : ZMod p) ^ 2 - 11 * (extN2 p u : ZMod p) ^ 2 := by
  simp [extS, toFe_cast hp, pow_two, mul_assoc]

theorem extInv_eq_none_iff {u : Ext} : extInv p u = none ↔ extS p u = 0 := by
  unfold extInv
  split <;> simp [*]

/-- The four coefficients of the derived inverse, as R144 gives them in F. -/
theorem extInv_cast (hp : 0 < p) {u r : Ext} (h : extInv p u = some r) :
    (r.c0 : ZMod p) = (u.c0 * extN0 p u - 11 * u.c2 * extN2 p u) * feInv p (extS p u) ∧
    (r.c1 : ZMod p) = (-u.c1 * extN0 p u + 11 * u.c3 * extN2 p u) * feInv p (extS p u) ∧
    (r.c2 : ZMod p) = (-u.c0 * extN2 p u + u.c2 * extN0 p u) * feInv p (extS p u) ∧
    (r.c3 : ZMod p) = (u.c1 * extN2 p u - u.c3 * extN0 p u) * feInv p (extS p u) := by
  have hs : ¬ extS p u = 0 := fun hs => by simp [extInv_eq_none_iff.2 hs] at h
  rw [extInv, if_neg hs, Option.some.injEq] at h
  subst h
  simp [toFe_cast hp]

/-- The derivation gives an inverse: with `u'` the element `u` at `-x`, it is `u' * (n0 - n2 * x^2) / s`, where
`u * u' = n0 + n2 * x^2`. -/
theorem extMul_extInv (hprime : p.Prime) {u r : Ext} (h : extInv p u = some r) : extMul p u r = ⟨1, 0, 0, 0⟩ := by
  have : Fact p.Prime := ⟨hprime⟩
  have hp := hprime.pos
  have hs : 0 < extS p u := Nat.pos_of_ne_zero fun hs => by simp [extInv_eq_none_iff.2 hs] at h
  have hlt : extS p u < p := toFe_lt hp _
  have hinv : (extS p u : ZMod p) * feInv p (extS p u) = 1 := by
    rw [feInv_cast hs hlt, mul_inv_cancel₀ (fe_cast_ne_zero hs hlt)]
  rw [extS_cast hp, extN0_cast hp, extN2_cast hp] at hinv
  refine Ext.ext_of_cast (extMul_lt hp u r) (by simp [hp, hprime.one_lt]) ?_ ?_ ?_ ?_ <;>
    simp only [extMul_cast hp, extInv_cast hp h, extN0_cast hp, extN2_cast hp, Nat.cast_one, Nat.cast_zero]
  · linear_combination hinv
  all_goals ring

end Inverse

/-! ### Over BabyBear only zero has no inverse -/

section Norm

variable {K : Type*} [Field K] {r : K}

theorem eq_zero_of_sq_eq_mul_sq (hr : ¬ IsSquare r) {x y : K} (h : x ^ 2 = r * y ^ 2) : x = 0 ∧ y = 0 := by
  have hy : y = 0 := by
    by_contra hy
    exact hr ⟨x / y, by field_simp; exact h.symm⟩
  exact ⟨by simpa [hy] using h, hy⟩

/-- `s` of R144, as a form in the coefficients, is 0 only at 0: `n0 = n2 = 0` makes the norms `A` of `c0 + c2 * y` and `B` of
`c1 + c3 * y`, with `y^2 = r`, satisfy `A^2 = -r * B^2`. -/
theorem eq_zero_of_extS_form_eq_zero (hr : ¬ IsSquare r) (hneg : ¬ IsSquare (-r)) {c0 c1 c2 c3 : K}
    (h : (c0 ^ 2 - r * (2 * c1 * c3 - c2 ^ 2)) ^ 2 - r * (2 * c0 * c2 - c1 ^ 2 - r * c3 ^ 2) ^ 2 = 0) :
    c0 = 0 ∧ c1 = 0 ∧ c2 = 0 ∧ c3 = 0 := by
  obtain ⟨hn0, hn2⟩ := eq_zero_of_sq_eq_mul_sq hr (sub_eq_zero.1 h)
  have hnorms : (c0 ^ 2 - r * c2 ^ 2) ^ 2 = -r * (c1 ^ 2 - r * c3 ^ 2) ^ 2 := by
    linear_combination (c0 ^ 2 + r * c2 ^ 2 + 2 * r * c1 * c3) * hn0 -
      r * (2 * c0 * c2 + c1 ^ 2 + r * c3 ^ 2) * hn2
  obtain ⟨ha, hb⟩ := eq_zero_of_sq_eq_mul_sq hneg hnorms
  obtain ⟨h0, h2⟩ := eq_zero_of_sq_eq_mul_sq hr (sub_eq_zero.1 ha)
  obtain ⟨h1, h3⟩ := eq_zero_of_sq_eq_mul_sq hr (sub_eq_zero.1 hb)
  exact ⟨h0, h1, h2, h3⟩

end Norm

/-- 11 and -11 have no square root in BabyBear, by quadratic reciprocity. -/
theorem babyBear_not_isSquare : ¬ IsSquare (11 : ZMod babyBear) ∧ ¬ IsSquare (-11 : ZMod babyBear) := by
  have : Fact (Nat.Prime 2013265921) := ⟨babyBear_prime⟩
  have h11 : legendreSym 2013265921 11 = -1 := by norm_num
  have hneg : legendreSym 2013265921 (-11) = -1 := by norm_num
  rw [legendreSym.eq_neg_one_iff] at h11 hneg
  exact_mod_cast And.intro h11 hneg

theorem extS_babyBear_eq_zero_iff {u : Ext} (hu : ∀ v ∈ u.toList, v < babyBear) :
    extS babyBear u = 0 ↔ u = ⟨0, 0, 0, 0⟩ := by
  have : Fact babyBear.Prime := ⟨babyBear_prime⟩
  constructor
  · intro hs
    have hform := extS_cast babyBear_prime.pos u
    rw [hs, Nat.cast_zero, extN0_cast babyBear_prime.pos, extN2_cast babyBear_prime.pos] at hform
    obtain ⟨h0, h1, h2, h3⟩ := eq_zero_of_extS_form_eq_zero babyBear_not_isSquare.1 babyBear_not_isSquare.2 hform.symm
    refine Ext.ext_of_cast hu (by simp [babyBear_prime.pos]) ?_ ?_ ?_ ?_ <;> simpa
  · rintro rfl
    rfl

/-- Settles O52. -/
theorem extensionInverseIsUnique : Obligations.ExtensionInverseIsUnique := by
  intro u h0 h1 h2 h3
  have hs := extS_babyBear_eq_zero_iff (Ext.forall_mem_toList.2 ⟨h0, h1, h2, h3⟩)
  refine ⟨hs, extInv_eq_none_iff.trans hs, fun r hr => ?_⟩
  have hinv := extMul_extInv babyBear_prime hr
  exact ⟨hinv, fun r' h0 h1 h2 h3 => extMul_inverse_unique babyBear_prime.pos (extInv_lt babyBear_prime.pos hr)
    (Ext.forall_mem_toList.2 ⟨h0, h1, h2, h3⟩) hinv⟩

/-! ### An extension element read and written (R140) -/

section Access

variable {s : State} {as q d a : Nat} {x : Ext} {f : FaultName}

/-- An extension element is read as the four words of its operand. -/
theorem State.readExt_map_toList : (s.readExt as q).map Ext.toList = s.readFes as q 4 := by
  unfold State.readExt State.readFes
  cases h0 : s.readFe as (wordAddr s.cfg q 0) with
  | error => simp [List.range_succ, mapOk, h0, Except.map]
  | ok c0 =>
  cases h1 : s.readFe as (wordAddr s.cfg q 1) with
  | error => simp [List.range_succ, mapOk, h0, h1, Except.map]
  | ok c1 =>
  cases h2 : s.readFe as (wordAddr s.cfg q 2) with
  | error => simp [List.range_succ, mapOk, h0, h1, h2, Except.map]
  | ok c2 =>
  cases h3 : s.readFe as (wordAddr s.cfg q 3) <;>
    simp [List.range_succ, mapOk, h0, h1, h2, h3, Except.map, Ext.toList]

theorem State.readExt_of_readsFes (h : s.ReadsFes as q x.toList) : s.readExt as q = .ok x := by
  have hread : (s.readExt as q).map Ext.toList = .ok x.toList :=
    State.readExt_map_toList.trans (State.readFes_of_readsFes h)
  cases hx : s.readExt as q with
  | error => simp [hx, Except.map] at hread
  | ok y =>
    cases x; cases y
    simpa [hx, Except.map] using hread

theorem State.readExt_of_readFaults (h : s.ReadFaults as q 4 f) : s.readExt as q = .error f := by
  have hread : (s.readExt as q).map Ext.toList = .error f :=
    State.readExt_map_toList.trans (State.readFes_of_readFaults h)
  cases hx : s.readExt as q with
  | error => simpa [hx, Except.map] using hread
  | ok => simp [hx, Except.map] at hread

/-- The end of a meaning that writes an extension element: the element is stored, and nothing else changes but `pc`. -/
theorem State.commit_writeExt (hf : Writable s.cfg d a 4) (hm : (s.space d).wf) :
    ∃ t, s.commit (s.writeExt d a x >>= fun u => .ok u.advance) = .next t ∧
      s.StoresWords t d a (x.toList.map (decompose s.cfg)) ∧ t.pc = (s.pc + s.cfg.instWidth) % s.cfg.p ∧
      s.SameBesides t := by
  obtain ⟨t, ht, hstores, hpc, hsame⟩ := State.writeFes_storesWords (vs := x.toList) hf hm
  have ⟨⟨hcfg, _⟩, _⟩ := hsame
  exact ⟨t.advance, State.commit_bind_ok ht, hstores, by rw [State.advance_pc, hcfg, hpc, feAdd], hsame⟩

theorem State.commit_writeExt_of_writeFaults (h : WriteFaults s.cfg d a 4 f) :
    s.commit (s.writeExt d a x >>= fun u => .ok u.advance) = .next (s.raise f) :=
  State.commit_bind_error (State.writeFes_of_writeFaults (vs := x.toList) h)

end Access

/-! ### What FE4ADD, FE4SUB and BBE4MUL share (R140, R145) -/

section ExtOp

variable {s : State} {a b c d e : Nat} {x y : Ext} {f : FaultName} {op : Ext → Ext → Ext}

theorem State.extOp_of_first_readFaults (hx : s.ReadFaults d b 4 f) : s.extOp a b c d e op = .next (s.raise f) :=
  State.commit_bind_error (State.readExt_of_readFaults hx)

theorem State.extOp_of_second_readFaults (hx : s.ReadsFes d b x.toList) (hy : s.ReadFaults e c 4 f) :
    s.extOp a b c d e op = .next (s.raise f) :=
  (State.commit_bind_ok (State.readExt_of_readsFes hx)).trans (State.commit_bind_error (State.readExt_of_readFaults hy))

theorem State.extOp_of_reads (hx : s.ReadsFes d b x.toList) (hy : s.ReadsFes e c y.toList) :
    s.extOp a b c d e op = s.commit (s.writeExt d a (op x y) >>= fun u => .ok u.advance) :=
  (State.commit_bind_ok (State.readExt_of_readsFes hx)).trans (State.commit_bind_ok (State.readExt_of_readsFes hy))

theorem State.extOp_of_writeFaults (hx : s.ReadsFes d b x.toList) (hy : s.ReadsFes e c y.toList)
    (hf : WriteFaults s.cfg d a 4 f) : s.extOp a b c d e op = .next (s.raise f) :=
  (State.extOp_of_reads hx hy).trans (State.commit_writeExt_of_writeFaults hf)

theorem State.extOp_storesWords (hx : s.ReadsFes d b x.toList) (hy : s.ReadsFes e c y.toList)
    (hf : Writable s.cfg d a 4) (hm : (s.space d).wf) :
    ∃ t, s.extOp a b c d e op = .next t ∧ s.StoresWords t d a ((op x y).toList.map (decompose s.cfg)) ∧
      t.pc = (s.pc + s.cfg.instWidth) % s.cfg.p ∧ s.SameBesides t := by
  rw [State.extOp_of_reads hx hy]
  exact State.commit_writeExt hf hm

end ExtOp

/-! ### The instructions -/

/-- Settles O49: each of the two is `State.extOp` with an operation that is `op` in every lane. -/
theorem extensionAddSub : Obligations.ExtensionAddSub := by
  intro s a b c d e i op hp hi
  obtain ⟨ext, hexec, hlanes⟩ : ∃ ext : Ext → Ext → Ext, exec i s = s.extOp a b c d e ext ∧
      ∀ x y, (∀ v ∈ y.toList, v < s.cfg.p) →
        (ext x y).toList = [op x.c0 y.c0, op x.c1 y.c1, op x.c2 y.c2, op x.c3 y.c3] := by
    rcases hi with ⟨rfl, rfl⟩ | ⟨rfl, rfl⟩
    · exact ⟨extAdd s.cfg.p, rfl, fun _ _ _ => rfl⟩
    · refine ⟨extSub s.cfg.p, rfl, fun x y hy => ?_⟩
      obtain ⟨h0, h1, h2, h3⟩ := Ext.forall_mem_toList.1 hy
      simp only [Ext.toList, extSub, feSub_eq hp h0.le, feSub_eq hp h1.le, feSub_eq hp h2.le, feSub_eq hp h3.le]
  refine ⟨fun x y hx hy => ⟨fun hf hm => ?_, fun f hf => ?_⟩, fun f hx => ?_, fun x f hx hy => ?_⟩
  · rw [hexec, ← hlanes x y (State.lt_of_readsFes hp hy)]
    exact State.extOp_storesWords hx hy hf hm
  · exact hexec.trans (State.extOp_of_writeFaults hx hy hf)
  · exact hexec.trans (State.extOp_of_first_readFaults hx)
  · exact hexec.trans (State.extOp_of_second_readFaults hx hy)

/-- Settles O50. -/
theorem extensionMultiply : Obligations.ExtensionMultiply := by
  intro s a b c d e hp
  refine ⟨fun x y hx hy => ⟨fun hf hm => ?_, fun f => State.extOp_of_writeFaults hx hy⟩,
    fun f => State.extOp_of_first_readFaults, fun x f => State.extOp_of_second_readFaults⟩
  obtain ⟨t, hexec, heffect⟩ := State.extOp_storesWords (op := extMul s.cfg.p) hx hy hf hm
  obtain ⟨h0, h1, h2, h3⟩ := extMul_cast hp x y
  exact ⟨extMul s.cfg.p x y, t, hexec, Ext.forall_mem_toList.1 (extMul_lt hp x y), h0, h1, h2, h3, heffect⟩

section Bbe4inv

variable {s : State} {a b d : Nat} {u : Ext} {f : FaultName}

theorem execBbe4inv_of_readFaults (h : s.ReadFaults d b 4 f) : execBbe4inv a b d s = .next (s.raise f) :=
  State.commit_bind_error (State.readExt_of_readFaults h)

theorem execBbe4inv_of_no_inverse (hu : s.ReadsFes d b u.toList) (h : extInv s.cfg.p u = none) :
    execBbe4inv a b d s = .next (s.raise .invZero) :=
  (State.commit_bind_ok (State.readExt_of_readsFes hu)).trans (by rw [h, State.commit_error])

theorem execBbe4inv_of_inverse {r : Ext} (hu : s.ReadsFes d b u.toList) (h : extInv s.cfg.p u = some r) :
    execBbe4inv a b d s = s.commit (s.writeExt d a r >>= fun v => .ok v.advance) :=
  (State.commit_bind_ok (State.readExt_of_readsFes hu)).trans (by rw [h])

end Bbe4inv

/-- Settles O51: the derivation gives no inverse exactly for zero (`extS_babyBear_eq_zero_iff`), and else one. -/
theorem extensionInvert : Obligations.ExtensionInvert := by
  intro s a b c d e hbb
  have hprime : s.cfg.p.Prime := hbb ▸ babyBear_prime
  refine ⟨fun u hu => ?_, fun f => execBbe4inv_of_readFaults⟩
  have hnone : extInv s.cfg.p u = none ↔ u = ⟨0, 0, 0, 0⟩ := by
    have hlt := State.lt_of_readsFes hprime.pos hu
    rw [hbb] at hlt ⊢
    exact extInv_eq_none_iff.trans (extS_babyBear_eq_zero_iff hlt)
  refine ⟨fun hne hf hm => ?_, fun hzero => execBbe4inv_of_no_inverse hu (hnone.2 hzero), fun f hne hf => ?_⟩ <;>
    obtain ⟨r, hr⟩ := Option.ne_none_iff_exists'.1 (hnone.not.2 hne)
  · obtain ⟨t, hexec, heffect⟩ := State.commit_writeExt (x := r) hf hm
    exact ⟨r, t, (execBbe4inv_of_inverse hu hr).trans hexec, Ext.forall_mem_toList.1 (extInv_lt hprime.pos hr),
      extMul_extInv hprime hr, heffect⟩
  · exact (execBbe4inv_of_inverse hu hr).trans (State.commit_writeExt_of_writeFaults hf)

end Sys2Proof.Machine
end

section
/-! PROOFS of the statements about the hash precompiles (spec/43_hash_precompiles.md): COMPRESS_POSEIDON2, PERM_POSEIDON2
and PERM_KECCAK.

Each meaning reads its pointers, reads its elements, and stores the permuted ones. `…_of_pointers` says what is left of
a meaning once its pointers are read and `…_of_reads` what is left once its elements are; what is left then is a write
of several words and an advance (`State.commit_writeFes`, `State.commit_writeFes_of_writeFaults`). The two Poseidon2
instructions agree because two adjacent halves read are the sixteen elements read (`State.readFes_append`), and
because words at different addresses last (`wordAddr_ne`). -/

namespace Sys2Proof.Machine

/-! ### Multi-word operands (R52, R155) -/

section Operands

variable {s t : State} {as q : Nat} {vs : List Nat}

theorem State.readFes_eq_ok_iff {n : Nat} : s.readFes as q n = .ok vs ↔ vs.length = n ∧ s.ReadsFes as q vs := by
  refine mapOk_range_eq_ok_iff.trans (and_congr_right fun hlen => ⟨fun h i x hx => ?_, fun h i _ => h i⟩)
  obtain ⟨hi, -⟩ := List.getElem?_eq_some_iff.1 hx
  exact h i (hlen ▸ hi) x hx

/-- Counting words from word `m` of an operand is counting on from `m`. -/
theorem wordAddr_wordAddr (c : Config) (q m i : Nat) : wordAddr c (wordAddr c q m) i = wordAddr c q (m + i) := by
  simp [wordAddr, feAdd, Nat.add_mul, Nat.add_assoc]

/-- Two operands of which the second begins where the first ends read as one. -/
theorem State.readFes_append {m n : Nat} {xs ys : List Nat} (hx : s.readFes as q m = .ok xs)
    (hy : s.readFes as (wordAddr s.cfg q m) n = .ok ys) : s.readFes as q (m + n) = .ok (xs ++ ys) := by
  obtain ⟨rfl, hfirst⟩ := State.readFes_eq_ok_iff.1 hx
  obtain ⟨rfl, hsecond⟩ := State.readFes_eq_ok_iff.1 hy
  refine State.readFes_eq_ok_iff.2 ⟨List.length_append, fun i x hi => ?_⟩
  rcases Nat.lt_or_ge i xs.length with hlt | hge
  · exact hfirst i x (by rwa [List.getElem?_append_left hlt] at hi)
  · have hread := hsecond (i - xs.length) x (by rwa [List.getElem?_append_right hge] at hi)
    rwa [wordAddr_wordAddr, Nat.add_sub_cancel' hge] at hread

/-- The words of an operand that is no longer than F have different addresses. -/
theorem wordAddr_ne {c : Config} {n i k : Nat} (hn : n * c.wordSize ≤ c.p) (hsize : 0 < c.wordSize) (hi : i < n)
    (hk : k < n) (hne : k ≠ i) : wordAddr c q k ≠ wordAddr c q i := by
  intro heq
  have hlt : ∀ {j}, j < n → j * c.wordSize < c.p := fun hj => (Nat.mul_lt_mul_of_pos_right hj hsize).trans_le hn
  have hmod : k * c.wordSize ≡ i * c.wordSize [MOD c.p] := Nat.ModEq.add_left_cancel' q heq
  exact hne (Nat.eq_of_mul_eq_mul_right hsize (hmod.eq_of_lt_of_lt (hlt hk) (hlt hi)))

/-- Words are written only when each of them passes its checks. -/
theorem State.writeFault_of_writeWordsFrom {ws : List Word} {i : Nat} (h : s.writeWordsFrom as q i ws = .ok t) :
    ∀ k < ws.length, writeFault s.cfg as (wordAddr s.cfg q (i + k)) = none := by
  induction ws generalizing s i with
  | nil => nofun
  | cons w ws ih =>
    cases hf : writeFault s.cfg as (wordAddr s.cfg q i) with
    | some f =>
      have hfault := State.writeWordsFrom_eq_error (ws := w :: ws) (k := 0) (by simp) nofun hf
      rw [h] at hfault
      cases hfault
    | none =>
      rw [State.writeWordsFrom_cons hf] at h
      intro k hk
      cases k with
      | zero => exact hf
      | succ k => simpa [Nat.add_assoc, Nat.add_comm 1] using ih h k (by simpa using hk)

/-- What a write of several elements that answers has stored. -/
theorem State.storesWords_of_writeFes (h : s.writeFes as q vs = .ok t) (hm : (s.space as).wf) :
    s.StoresWords t as q (vs.map (decompose s.cfg)) := by
  have hf : Writable s.cfg as q vs.length := by simpa using State.writeFault_of_writeWordsFrom h
  obtain ⟨u, hu, hstores, -⟩ := State.writeFes_storesWords hf hm
  cases h.symm.trans hu
  exact hstores

/-- An element written lasts where the words of its operand have different addresses. -/
theorem State.peek_of_writeFes {k j v : Nat} (h : s.writeFes as q vs = .ok t) (hm : (s.space as).wf)
    (hfit : vs.length * s.cfg.wordSize ≤ s.cfg.p) (hv : vs[k]? = some v) (hj : j < s.cfg.wordSize) :
    t.peek as (wordAddr s.cfg q k + j) = (decompose s.cfg v)[j]? := by
  obtain ⟨hstores, -⟩ := State.storesWords_of_writeFes h hm
  obtain ⟨hk, -⟩ := List.getElem?_eq_some_iff.1 hv
  refine hstores k (decompose s.cfg v) (by simp [hv]) (fun k' hlt hk' => ?_) j (by rwa [decompose_length])
  exact wordAddr_ne hfit (by omega) hk (by simpa using hk') (by omega)

/-- The end of a meaning that writes several elements: they are stored, and nothing else changes but `pc`. -/
theorem State.commit_writeFes {n : Nat} (hn : vs.length = n) (hf : Writable s.cfg as q n) (hm : (s.space as).wf) :
    ∃ t, s.commit (s.writeFes as q vs >>= fun u => .ok u.advance) = .next t ∧
      s.StoresWords t as q (vs.map (decompose s.cfg)) ∧ t.pc = (s.pc + s.cfg.instWidth) % s.cfg.p ∧
      s.SameBesides t := by
  subst hn
  obtain ⟨t, ht, hstores, hpc, hsame⟩ := State.writeFes_storesWords hf hm
  have ⟨⟨hcfg, _⟩, _⟩ := hsame
  exact ⟨t.advance, State.commit_bind_ok ht, hstores, by rw [State.advance_pc, hcfg, hpc, feAdd], hsame⟩

theorem State.commit_writeFes_of_writeFaults {n : Nat} {f : FaultName} (hn : vs.length = n)
    (hf : WriteFaults s.cfg as q n f) :
    s.commit (s.writeFes as q vs >>= fun u => .ok u.advance) = .next (s.raise f) :=
  State.commit_bind_error (State.writeFes_of_writeFaults (hn ▸ hf))

end Operands

variable {s t : State} {a b c d e qa qb qc : Nat}

/-! ### COMPRESS_POSEIDON2 -/

section Compress

variable {left right : List Nat}

theorem execCompressPoseidon2_of_pointers (ha : s.readFe d a = .ok qa) (hb : s.readFe d b = .ok qb)
    (hc : s.readFe d c = .ok qc) :
    execCompressPoseidon2 a b c d e s = s.commit (do
      let left ← s.readFes e qb chunk
      let right ← s.readFes e qc chunk
      let t ← s.writeFes e qa ((poseidon2Perm s.cfg.p (left ++ right)).take chunk)
      .ok t.advance) :=
  (State.commit_bind_ok ha).trans ((State.commit_bind_ok hb).trans (State.commit_bind_ok hc))

theorem execCompressPoseidon2_of_reads (ha : s.readFe d a = .ok qa) (hb : s.readFe d b = .ok qb)
    (hc : s.readFe d c = .ok qc) (hleft : s.readFes e qb chunk = .ok left) (hright : s.readFes e qc chunk = .ok right) :
    execCompressPoseidon2 a b c d e s =
      s.commit (s.writeFes e qa ((poseidon2Perm s.cfg.p (left ++ right)).take chunk) >>= fun t => .ok t.advance) :=
  (execCompressPoseidon2_of_pointers ha hb hc).trans
    ((State.commit_bind_ok hleft).trans (State.commit_bind_ok hright))

theorem poseidon2Perm_take_length (p : Nat) (l : List Nat) : ((poseidon2Perm p l).take chunk).length = chunk := by
  simp [chunk, poseidonWidth]

end Compress

/-- Settles O54: the links of the chain in their order, each fault where the links before it answer. -/
theorem compressStoresHalfTheState : Obligations.CompressStoresHalfTheState := by
  rintro s a b c d e _ rfl
  refine ⟨fun qa qb qc ha hb hc => ⟨fun left right hl hr hleft hright => ?_, fun f hf => ?_,
    fun left f hl hleft hf => ?_⟩, fun f ha => ?_, fun qa f ha hb => ?_, fun qa qb f ha hb hc => ?_⟩
  · have hexec := execCompressPoseidon2_of_reads (e := e) ha hb hc (State.readFes_eq_ok_iff.2 ⟨hl, hleft⟩)
      (State.readFes_eq_ok_iff.2 ⟨hr, hright⟩)
    have hlen := poseidon2Perm_take_length s.cfg.p (left ++ right)
    exact ⟨fun hf hm => (State.commit_writeFes hlen hf hm).imp fun t => And.imp_left hexec.trans,
      fun f hf => hexec.trans (State.commit_writeFes_of_writeFaults hlen hf)⟩
  · exact (execCompressPoseidon2_of_pointers ha hb hc).trans (State.commit_bind_error (State.readFes_of_readFaults hf))
  · exact (execCompressPoseidon2_of_pointers ha hb hc).trans
      ((State.commit_bind_ok (State.readFes_eq_ok_iff.2 ⟨hl, hleft⟩)).trans
        (State.commit_bind_error (State.readFes_of_readFaults hf)))
  · exact State.commit_bind_error ha
  · exact (State.commit_bind_ok ha).trans (State.commit_bind_error hb)
  · exact (State.commit_bind_ok ha).trans ((State.commit_bind_ok hb).trans (State.commit_bind_error hc))

/-! ### PERM_POSEIDON2 -/

section Permute

variable {st : List Nat}

theorem execPermPoseidon2_of_offset (hb : b ≠ 0) :
    execPermPoseidon2 a b c d e s = .next (s.raise .offsetUnsupported) := by
  rw [execPermPoseidon2, State.permuteWith, if_pos hb, State.commit_error]

theorem execPermPoseidon2_of_pointers (ha : s.readFe d a = .ok qa) (hc : s.readFe d c = .ok qc) :
    execPermPoseidon2 a 0 c d e s = s.commit (do
      let st ← s.readFes e qc poseidonWidth
      let t ← s.writeFes e qa (poseidon2Perm s.cfg.p st)
      .ok t.advance) :=
  (State.commit_bind_ok ha).trans (State.commit_bind_ok hc)

theorem execPermPoseidon2_of_reads (ha : s.readFe d a = .ok qa) (hc : s.readFe d c = .ok qc)
    (hst : s.readFes e qc poseidonWidth = .ok st) :
    execPermPoseidon2 a 0 c d e s =
      s.commit (s.writeFes e qa (poseidon2Perm s.cfg.p st) >>= fun t => .ok t.advance) :=
  (execPermPoseidon2_of_pointers ha hc).trans (State.commit_bind_ok hst)

end Permute

/-- Settles O55. -/
theorem permuteStoresTheState : Obligations.PermuteStoresTheState := by
  rintro s a b c d e _ rfl
  refine ⟨execPermPoseidon2_of_offset, ?_⟩
  rintro rfl
  refine ⟨fun qa qc ha hc => ⟨fun st hl hst => ?_, fun f hf => ?_⟩, fun f ha => ?_, fun qa f ha hc => ?_⟩
  · have hexec := execPermPoseidon2_of_reads ha hc (State.readFes_eq_ok_iff.2 ⟨hl, hst⟩)
    have hlen := poseidon2Perm_length s.cfg.p st
    exact ⟨fun hf hm => (State.commit_writeFes hlen hf hm).imp fun t => And.imp_left hexec.trans,
      fun f hf => hexec.trans (State.commit_writeFes_of_writeFaults hlen hf)⟩
  · exact (execPermPoseidon2_of_pointers ha hc).trans (State.commit_bind_error (State.readFes_of_readFaults hf))
  · exact State.commit_bind_error ha
  · exact (State.commit_bind_ok ha).trans (State.commit_bind_error hc)

/-! ### COMPRESS_POSEIDON2 against PERM_POSEIDON2 -/

/-- An instruction after which the run still goes on has raised no fault. -/
theorem State.commit_eq_next_running {r : Except FaultName State} (h : s.commit r = .next t)
    (ht : t.status = .running) : r = .ok t := by
  rcases State.commit_eq_next h with hr | ⟨n, -, rfl⟩
  · exact hr
  · simp at ht

/-- A COMPRESS_POSEIDON2 that completes has read two halves and written half of what they permute to. -/
theorem execCompressPoseidon2_completes (ha : s.readFe d a = .ok qa) (hb : s.readFe d b = .ok qb)
    (hc : s.readFe d c = .ok qc) (h : execCompressPoseidon2 a b c d e s = .next t) (ht : t.status = .running) :
    ∃ left right t', s.readFes e qb chunk = .ok left ∧ s.readFes e qc chunk = .ok right ∧
      s.writeFes e qa ((poseidon2Perm s.cfg.p (left ++ right)).take chunk) = .ok t' ∧ t = t'.advance := by
  rw [execCompressPoseidon2_of_pointers ha hb hc] at h
  have hr := State.commit_eq_next_running h ht
  simp only [bind_eq_ok] at hr
  obtain ⟨left, hleft, right, hright, t', ht', ⟨⟩⟩ := hr
  exact ⟨left, right, t', hleft, hright, ht', rfl⟩

/-- Settles O56: both have permuted the same sixteen elements, and both have stored the first eight results at addresses
that no later word covers. -/
theorem compressIsTheFirstHalfOfPermute : Obligations.CompressIsTheFirstHalfOfPermute := by
  intro s t u a b c d e qa qb _ hp hm ha hb hc ht hu htrun hurun k hk j hj
  obtain ⟨left, right, t', hleft, hright, ht', rfl⟩ := execCompressPoseidon2_completes ha hb hc ht htrun
  have hexec := execPermPoseidon2_of_reads ha hb (State.readFes_append hleft hright)
  obtain ⟨u', hu', ⟨⟩⟩ := bind_eq_ok.1 (State.commit_eq_next_running (hexec.symm.trans hu) hurun)
  obtain ⟨v, hv⟩ : ∃ v, (poseidon2Perm s.cfg.p (left ++ right))[k]? = some v :=
    ⟨_, List.getElem?_eq_getElem (by rw [poseidon2Perm_length, poseidonWidth]; omega)⟩
  have hhalf : ((poseidon2Perm s.cfg.p (left ++ right)).take chunk)[k]? = some v :=
    (List.getElem?_take_of_lt hk).trans hv
  have htk := State.peek_of_writeFes ht' hm (by rw [poseidon2Perm_take_length, chunk]; omega) hhalf hj
  have huk := State.peek_of_writeFes hu' hm (by rwa [poseidon2Perm_length]) hv hj
  rw [State.peek_advance, State.peek_advance, htk, huk]

/-! ### PERM_KECCAK -/

section Keccak

variable {st : List Nat} {f : FaultName} {i v : Nat}

theorem State.readU16_of_lt (h : s.readWord e ((qc + i) % s.cfg.p) = .ok [v]) (hv : v < 2 ^ 16) :
    s.readU16 e qc i = .ok v := by
  rw [State.readU16, feAdd, h, ok_bind, List.headD_cons, if_neg (Nat.not_le_of_lt hv)]

theorem State.readU16_of_ge (h : s.readWord e ((qc + i) % s.cfg.p) = .ok [v]) (hv : 2 ^ 16 ≤ v) :
    s.readU16 e qc i = .error .keccakRange := by
  rw [State.readU16, feAdd, h, ok_bind, List.headD_cons, if_pos hv]

theorem State.readU16_of_readWord_error (h : s.readWord e ((qc + i) % s.cfg.p) = .error f) :
    s.readU16 e qc i = .error f := by
  rw [State.readU16, feAdd, h, error_bind]

theorem execPermKeccak_of_wordSize (h : s.cfg.wordSize ≠ 1) :
    execPermKeccak a b c d e s = .next (s.raise .keccakWordSize) := by
  rw [execPermKeccak, State.keccakWith, if_pos h, State.commit_error]

theorem execPermKeccak_of_offset (h1 : s.cfg.wordSize = 1) (hb : b ≠ 0) :
    execPermKeccak a b c d e s = .next (s.raise .offsetUnsupported) := by
  rw [execPermKeccak, State.keccakWith, if_neg (not_not.2 h1), if_pos hb, State.commit_error]

/-- The rule after its two checks of what it supports (R154). -/
theorem execPermKeccak_of_supported (h1 : s.cfg.wordSize = 1) :
    execPermKeccak a 0 c d e s = s.commit (do
      let qa ← s.readWord d a
      let qc ← s.readWord d c
      let st ← mapOk (fun i => s.readU16 e (qc.headD 0) i) (List.range s.cfg.keccakWidth)
      let t ← s.writeDest e (qa.headD 0) ((keccakF s.cfg.keccakWidth st).map fun v => [v % s.cfg.p])
      .ok t.advance) := by
  rw [execPermKeccak, State.keccakWith, if_neg (not_not.2 h1), if_neg (not_not.2 rfl)]

theorem execPermKeccak_of_pointers (h1 : s.cfg.wordSize = 1) (ha : s.readWord d a = .ok [qa])
    (hc : s.readWord d c = .ok [qc]) :
    execPermKeccak a 0 c d e s = s.commit (do
      let st ← mapOk (fun i => s.readU16 e qc i) (List.range s.cfg.keccakWidth)
      let t ← s.writeDest e qa ((keccakF s.cfg.keccakWidth st).map fun v => [v % s.cfg.p])
      .ok t.advance) := by
  rw [execPermKeccak_of_supported h1, State.commit_bind_ok ha, State.commit_bind_ok hc]
  simp only [List.headD_cons]

theorem execPermKeccak_of_reads (h1 : s.cfg.wordSize = 1) (ha : s.readWord d a = .ok [qa])
    (hc : s.readWord d c = .ok [qc]) (hlen : st.length = s.cfg.keccakWidth)
    (hst : ∀ k v, st[k]? = some v → v < 2 ^ 16 ∧ s.readWord e ((qc + k) % s.cfg.p) = .ok [v]) :
    execPermKeccak a 0 c d e s = s.commit
      (s.writeDest e qa ((keccakF s.cfg.keccakWidth st).map fun v => [v % s.cfg.p]) >>= fun t => .ok t.advance) := by
  refine (execPermKeccak_of_pointers h1 ha hc).trans
    (State.commit_bind_ok (mapOk_range_eq_ok_iff.2 ⟨hlen, fun k _ v hv => ?_⟩))
  obtain ⟨hlt, hread⟩ := hst k v hv
  exact State.readU16_of_lt hread hlt

theorem keccakF_length (width : Nat) (l : List Nat) : (keccakF width l).length = width := by simp [keccakF]

/-- With words of one element, the words PERM_KECCAK stores are decompositions. -/
theorem map_singleton_eq_map_decompose (h1 : s.cfg.wordSize = 1) (l : List Nat) :
    (l.map fun v => [v % s.cfg.p]) = (l.map (· % s.cfg.p)).map (decompose s.cfg) := by
  simp [decompose_of_wordSize_eq_one h1]

theorem State.writeDest_of_destFault (h : destFault e = some f) (ws : List Word) :
    s.writeDest e qa ws = .error f := by
  rw [State.writeDest, h]

/-- A destination whose space can be written is written as any multi-word operand; and one that cannot be, of at least one
word, faults as its first word does. -/
theorem State.writeDest_eq_writeFes {ws : List Word} {vs : List Nat} (h : e = 1 ∨ e = 2 ∨ ws ≠ [])
    (hws : ws = vs.map (decompose s.cfg)) : s.writeDest e qa ws = s.writeFes e qa vs := by
  rw [State.writeFes, ← hws]
  rcases h with h | h | h
  · exact State.writeDest_of_space (.inl h) qa ws
  · exact State.writeDest_of_space (.inr h) qa ws
  · obtain ⟨w, ws, rfl⟩ := List.exists_cons_of_ne_nil h
    exact State.writeDest_cons e qa w ws

end Keccak

/-- Settles O57. -/
theorem keccakStoresTheState : Obligations.KeccakStoresTheState := by
  rintro s a b c d e _ rfl
  refine ⟨execPermKeccak_of_wordSize, execPermKeccak_of_offset, ?_⟩
  rintro h1 rfl
  refine ⟨fun qa qc ha hc => ⟨fun st hlen hst => ?_, fun k hk hfirst => ?_⟩, fun f ha => ?_, fun qa f ha hc => ?_⟩
  · have hexec := execPermKeccak_of_reads h1 ha hc hlen hst
    have hwords := map_singleton_eq_map_decompose h1 (keccakF s.cfg.keccakWidth st)
    have hcount : ((keccakF s.cfg.keccakWidth st).map (· % s.cfg.p)).length = s.cfg.keccakWidth := by
      rw [List.length_map, keccakF_length]
    have hspace : ∀ f, destFault e = some f → Raises (.permKeccak a 0 c d e) s f := fun f hf =>
      hexec.trans (State.commit_bind_error (State.writeDest_of_destFault hf _))
    refine ⟨?_, ?_, fun he => hspace _ ?_, fun he hf hm => ?_, fun f hf => ?_⟩
    · rintro rfl; exact hspace _ rfl
    · rintro rfl; exact hspace _ rfl
    · simp [destFault, he, show e ≠ 0 by omega, show e ≠ 3 by omega]
    · rw [State.writeDest_eq_writeFes (by omega) hwords] at hexec
      rw [hwords]
      exact (State.commit_writeFes hcount hf hm).imp fun t => And.imp_left hexec.trans
    · have hne : (keccakF s.cfg.keccakWidth st).map (fun v => [v % s.cfg.p]) ≠ [] := by
        obtain ⟨k, hk, -⟩ := hf
        rw [← List.length_pos_iff_ne_nil, List.length_map, keccakF_length]
        omega
      rw [State.writeDest_eq_writeFes (.inr (.inr hne)) hwords] at hexec
      exact hexec.trans (State.commit_writeFes_of_writeFaults hcount hf)
  · have hfault : ∀ f, s.readU16 e qc k = .error f → Raises (.permKeccak a 0 c d e) s f := fun f hf => by
      refine (execPermKeccak_of_pointers h1 ha hc).trans
        (State.commit_bind_error (mapOk_range_eq_error hk (fun j hj => ?_) hf))
      obtain ⟨v, hv, hread⟩ := hfirst j hj
      exact ⟨v, State.readU16_of_lt hread hv⟩
    exact ⟨fun f hf => hfault f (State.readU16_of_readWord_error hf),
      fun v hread hv => hfault _ (State.readU16_of_ge hread hv)⟩
  · exact (execPermKeccak_of_supported h1).trans (State.commit_bind_error ha)
  · exact (execPermKeccak_of_supported h1).trans ((State.commit_bind_ok ha).trans (State.commit_bind_error hc))

end Sys2Proof.Machine
end

section
/-! PROOFS of the statements about FAIL and PRINTF (spec/44_excluded.md): never enabled, performed when met (R160). -/

namespace Sys2Proof.Machine

/-- Settles O58: the effect of FAIL is its fault, raised without a read (R161). -/
theorem failFailsTheRun : Obligations.FailFailsTheRun := fun _ _ _ _ _ _ => rfl

section Printf

variable {s : State} {a d : Nat}

theorem execPrintf_of_read {v : Nat} (hv : s.readFe d a = .ok v) :
    execPrintf a d s = .next { s.advance with printLog := s.printLog ++ [v], verifiable := false } :=
  State.commit_bind_ok hv

theorem execPrintf_of_read_error {f : FaultName} (hf : s.readFe d a = .error f) :
    execPrintf a d s = .next (s.raise f) :=
  State.commit_bind_error hf

end Printf

/-- Settles O59: the only link of the chain that can fault is the read of the printed cell. -/
theorem printfPrintsAndSpoils : Obligations.PrintfPrintsAndSpoils := fun _ _ _ _ _ _ =>
  ⟨fun _ => execPrintf_of_read, fun _ => execPrintf_of_read_error⟩

end Sys2Proof.Machine
end

section
/-! PROOFS of the statements about faults and the outcome of a run (spec/60_exceptions.md): a failing step changes
nothing but the status, and the run of every admitted launch has exactly one of the four outcomes.

That a run has an outcome rests on progress: while the program holds elements of F alone, which a launch checks and no
step changes, a running machine has a next state (`step_exists_next`), so that a run either ends or is Running for ever
(`State.exists_runsTo`). That it has one alone rests on an ended run taking no step (`State.ended_unique`). -/

namespace Sys2Proof.Machine

variable {s t : State}

/-! ### Faults are precise -/

/-- A step to a next state is a running machine that has had the effect of an instruction or has raised a fault. -/
theorem step_effect (h : step s = .next t) :
    s.status = .running ∧ ((∃ i, Effect s i t) ∨ ∃ n, t = s.raise n) := by
  obtain ⟨hs, ⟨i, -, he⟩ | hraise⟩ := step_eq_next h
  · exact ⟨hs, (exec_effect he).imp_left fun heff => ⟨i, heff⟩⟩
  · exact ⟨hs, .inr hraise⟩

/-- Settles O20: no effect of an instruction leads to Failed, so the step has raised a fault. -/
theorem faultsArePrecise : Obligations.FaultsArePrecise := by
  intro s t ht hfailed
  obtain ⟨hs, ⟨i, heff⟩ | hraise⟩ := step_effect ht
  · rcases heff.status_cases with hst | ⟨-, rfl⟩
    · rw [hst, hs] at hfailed; cases hfailed
    · cases hfailed
  · exact hraise

/-! ### What a launch that loads has checked -/

/-- A launch loads when it meets every condition of R193, and then into its own state. -/
theorem Launch.load_eq_next_iff {l : Launch} :
    l.load = .next s ↔ (∀ q ∈ launchConditions, l.admits q = true) ∧ s = l.state := by
  have hadmits : launchConditions.find? (fun q => !l.admits q) = none ↔ ∀ q ∈ launchConditions, l.admits q = true := by
    simp
  rw [← hadmits, Launch.load]
  split <;> simp [*, eq_comm]

/-- A launch that loads has the outcomes of the run from the state it loads into. -/
theorem Launch.hasOutcome_iff {l : Launch} (h : l.load = .next s) (o : RunOutcome) : l.HasOutcome o ↔ s.RunsTo o := by
  simp [Launch.HasOutcome, h]

/-- Every group of the program holds elements of F alone (R72, R193 item 6). -/
def State.ProgramInField (s : State) : Prop := ∀ u ∈ s.program, u.wellFormed s.cfg.p = true

theorem Launch.programInField_of_load {l : Launch} (h : l.load = .next s) : s.ProgramInField := by
  obtain ⟨hall, rfl⟩ := Launch.load_eq_next_iff.1 h
  exact List.all_eq_true.1 (hall .programElementOutOfRange (by decide))

theorem State.ProgramInField.step (h : s.ProgramInField) (ht : step s = .next t) : t.ProgramInField := by
  obtain ⟨hcfg, hprogram, -⟩ := stepKeepsTheLaunchParameters s t ht
  rwa [State.ProgramInField, hcfg, hprogram]

/-! ### Progress -/

/-- A running machine whose program holds elements of F alone has a next state: the fetch faults, the group is no
opcode, the opcode is disabled, or an instruction is performed. -/
theorem step_exists_next (h : s.ProgramInField) (hs : s.status = .running) : ∃ t, step s = .next t := by
  cases hf : fetchTuple s with
  | error n => exact ⟨_, step_of_fetchTuple_error hs hf⟩
  | ok u =>
    have hu : u.wellFormed s.cfg.p = true := h u (List.mem_of_getElem? (fetchTuple_eq_ok_iff.1 hf).2)
    by_cases hm : ∃ m, s.cfg.opcodeOf m = u.opcode
    · obtain ⟨i, hd⟩ := (exists_decode_eq_ok_iff hu).2 hm
      by_cases hr : runnable s.cfg i.mnemonic = true
      · rw [step_of_nextInstr (nextInstr_eq_ok_iff.2 ⟨hs, u, hf, hd, hr⟩)]
        exact everyInstructionAnswersNext i s
      · exact ⟨_, step_of_not_runnable hs hf hd hr⟩
    · exact ⟨_, step_of_opcodeUnknown hs hf ((decode_eq_opcodeUnknown_iff hu).2 (not_exists.1 hm))⟩

/-- A run that never ends has a state after every number of steps. -/
theorem State.runFor_exists_next (h : s.ProgramInField)
    (hrun : ∀ n t, s.runFor n = .next t → t.status = .running) (n : Nat) : ∃ t, s.runFor n = .next t := by
  induction n generalizing s with
  | zero => exact ⟨s, rfl⟩
  | succ n ih =>
    obtain ⟨u, hu⟩ := step_exists_next h (hrun 0 s rfl)
    rw [State.runFor_succ_of_step hu]
    refine ih (h.step hu) fun m t ht => hrun (m + 1) t ?_
    rwa [State.runFor_succ_of_step hu]

/-! ### The end of a run -/

/-- An ended run has no further state. -/
theorem State.eq_zero_of_runFor_of_ended (hs : s.status ≠ .running) {n : Nat} (h : s.runFor n = .next t) : n = 0 := by
  cases n with
  | zero => rfl
  | succ n =>
    obtain ⟨u, hu, -⟩ := State.runFor_succ_eq_next.1 h
    exact absurd hu (endedRunTakesNoStep s hs u)

/-- A run ends in one state alone. -/
theorem State.ended_unique {n m : Nat} {u : State} (ht : s.runFor n = .next t) (hu : s.runFor m = .next u)
    (htend : t.status ≠ .running) (huend : u.status ≠ .running) : t = u := by
  wlog hle : n ≤ m generalizing n m t u
  · exact (this hu ht huend htend (Nat.le_of_not_le hle)).symm
  obtain ⟨k, rfl⟩ := Nat.exists_eq_add_of_le hle
  obtain ⟨v, hv, hvu⟩ := (State.runFor_add_eq_next k).1 hu
  obtain rfl : t = v := by simpa [ht] using hv
  obtain rfl := State.eq_zero_of_runFor_of_ended htend hvu
  simpa using hvu

/-! ### What the state at the end of a run says -/

theorem State.outcome_eq_accepted_iff : t.outcome = some .accepted ↔ t.status = .terminated ∧ t.verifiable = true := by
  unfold State.outcome
  cases t.status <;> simp

theorem State.outcome_eq_rejected_iff : t.outcome = some .rejected ↔ t.status = .failed := by
  unfold State.outcome
  cases t.status with
  | running | failed => simp
  | terminated => cases t.verifiable <;> simp

theorem State.outcome_eq_unverifiable_iff :
    t.outcome = some .unverifiable ↔ t.status = .terminated ∧ t.verifiable = false := by
  unfold State.outcome
  cases t.status <;> simp

theorem State.outcome_ne_noOutcome : t.outcome ≠ some .noOutcome := by
  unfold State.outcome
  cases t.status with
  | running | failed => simp
  | terminated => cases t.verifiable <;> simp

theorem State.status_ne_running_of_outcome {o : RunOutcome} (h : t.outcome = some o) : t.status ≠ .running :=
  State.outcome_isSome_iff.1 (by simp [h])

/-! ### The outcome of a run -/

/-- The outcomes but `noOutcome` are those of the state at the end of the run. -/
theorem State.runsTo_iff_of_ne_noOutcome {o : RunOutcome} (ho : o ≠ .noOutcome) :
    s.RunsTo o ↔ ∃ n t, s.runFor n = .next t ∧ t.outcome = some o := by
  cases o with
  | noOutcome => exact absurd rfl ho
  | accepted | rejected | unverifiable => rfl

/-- A run ends, or is Running after every number of steps; either way it has an outcome. -/
theorem State.exists_runsTo (h : s.ProgramInField) : ∃ o, s.RunsTo o := by
  by_cases hend : ∃ n t, s.runFor n = .next t ∧ t.status ≠ .running
  · obtain ⟨n, t, ht, hst⟩ := hend
    obtain ⟨o, ho⟩ := Option.isSome_iff_exists.1 (State.outcome_isSome_iff.2 hst)
    have hne : o ≠ .noOutcome := by rintro rfl; exact State.outcome_ne_noOutcome ho
    exact ⟨o, (State.runsTo_iff_of_ne_noOutcome hne).2 ⟨n, t, ht, ho⟩⟩
  · have hrun : ∀ n t, s.runFor n = .next t → t.status = .running := by simpa using hend
    refine ⟨.noOutcome, fun n => ?_⟩
    obtain ⟨t, ht⟩ := State.runFor_exists_next h hrun n
    exact ⟨t, ht, hrun n t ht⟩

/-- A run that is Running after every number of steps has no other outcome. -/
theorem State.RunsTo.eq_noOutcome {o : RunOutcome} (h : s.RunsTo .noOutcome) (ho : s.RunsTo o) : o = .noOutcome := by
  by_contra hne
  obtain ⟨n, t, ht, hout⟩ := (State.runsTo_iff_of_ne_noOutcome hne).1 ho
  obtain ⟨u, hu, hrun⟩ := h n
  obtain rfl : t = u := by simpa [ht] using hu
  exact State.status_ne_running_of_outcome hout hrun

theorem State.RunsTo.unique {o o' : RunOutcome} (h : s.RunsTo o) (h' : s.RunsTo o') : o = o' := by
  by_cases hno : o = .noOutcome
  · subst hno; exact (h.eq_noOutcome h').symm
  by_cases hno' : o' = .noOutcome
  · subst hno'; exact h'.eq_noOutcome h
  obtain ⟨n, t, ht, hout⟩ := (State.runsTo_iff_of_ne_noOutcome hno).1 h
  obtain ⟨m, u, hu, hout'⟩ := (State.runsTo_iff_of_ne_noOutcome hno').1 h'
  obtain rfl : t = u := State.ended_unique ht hu (State.status_ne_running_of_outcome hout)
    (State.status_ne_running_of_outcome hout')
  exact Option.some.inj (hout.symm.trans hout')

/-- Settles O31. -/
theorem outcomeOfTheRun : Obligations.OutcomeOfTheRun := by
  intro l s hl
  simp only [Launch.hasOutcome_iff hl]
  refine ⟨?_, ?_, ?_, Iff.rfl, ?_⟩
  · simp only [State.RunsTo, State.outcome_eq_accepted_iff]
  · simp only [State.RunsTo, State.outcome_eq_rejected_iff]
  · simp only [State.RunsTo, State.outcome_eq_unverifiable_iff]
  · obtain ⟨o, ho⟩ := State.exists_runsTo (Launch.programInField_of_load hl)
    exact ⟨o, ho, fun o' ho' => ho'.unique ho⟩

end Sys2Proof.Machine
end

section
/-! PROOFS of the statements about the launch (spec/70_reset_and_hazards.md): a launch is accepted when it meets every
condition of R193 and refused otherwise, and a run begins with every value in range. -/

namespace Sys2Proof.Machine

variable {s : State} {l : Launch}

/-! ### What the checks of a launch say -/

theorem Launch.admits_pNotPrime_iff : l.admits .pNotPrime = true ↔ l.cfg.p.Prime := decide_eq_true_iff

/-- The opcodes of the BabyBear field ask for its order (R193 item 5). -/
theorem Launch.admits_babyBearNeeded_iff :
    l.admits .babyBearNeeded = true ↔ ((∃ m ∈ babyBearMnemonics, m ∈ l.cfg.enabled) → l.cfg.p = 2013265921) :=
  decide_eq_true_iff

/-- Every element of the program is an element of F (R193 item 6). -/
theorem Launch.admits_programElementOutOfRange_iff :
    l.admits .programElementOutOfRange = true ↔
      ∀ t ∈ l.program, t.opcode < l.cfg.p ∧ t.a < l.cfg.p ∧ t.b < l.cfg.p ∧ t.c < l.cfg.p ∧ t.d < l.cfg.p ∧
        t.e < l.cfg.p := by
  simp only [Launch.admits, List.all_eq_true, tuple_wellFormed_iff]

/-- Both address spaces of `M0` fit their domains (R193 item 7). -/
theorem Launch.admits_initialMemoryBad_iff :
    l.admits .initialMemoryBad = true ↔ FitsSpace l.cfg 1 l.regs ∧ FitsSpace l.cfg 2 l.mem := by
  simp only [Launch.admits, Bool.and_eq_true, fitsSpace_iff]

theorem Launch.admits_inputsBad_iff :
    l.admits .inputsBad = true ↔ ∀ i ∈ l.inputs, ∀ w ∈ i, IsWord l.cfg w := decide_eq_true_iff

/-! ### A launch is accepted or refused -/

/-- A launch that breaks a condition is refused, under the name of the first one it breaks. -/
theorem Launch.load_refused_of_not_admits (h : ¬ ∀ q ∈ launchConditions, l.admits q = true) :
    ∃ q, l.load = .refused (.badLaunch q) := by
  cases hf : launchConditions.find? (fun q => !l.admits q) with
  | none => exact absurd (by simpa using hf) h
  | some q => exact ⟨q, by rw [Launch.load, hf]⟩

/-- Settles O34: the check of each condition is exact, so that the conditions hold together exactly when all are
admitted. -/
theorem launchRefusesExactlyTheIllFormed : Obligations.LaunchRefusesExactlyTheIllFormed := by
  intro l c ok
  have hok : (∀ q ∈ launchConditions, l.admits q = true) ↔ ok := by
    simp only [launchConditions, List.forall_mem_cons, Launch.admits_pNotPrime_iff,
      Launch.admits_babyBearNeeded_iff, Launch.admits_programElementOutOfRange_iff,
      Launch.admits_initialMemoryBad_iff, Launch.admits_inputsBad_iff]
    simp only [Launch.admits, decide_eq_true_eq, List.not_mem_nil, false_imp_iff, implies_true, and_true,
      and_assoc, ok, c]
  exact ⟨fun h => Launch.load_eq_next_iff.2 ⟨hok.2 h, rfl⟩, fun h => Launch.load_refused_of_not_admits (mt hok.1 h)⟩

/-! ### A run begins with every value in range -/

/-- The invariant holds of a launch state: what the host supplied has been checked, and `pc`, the hint stream, the print
log and the report are those of R35. -/
theorem Launch.wf_of_load (h : l.load = .next s) : s.Wf := by
  obtain ⟨hall, rfl⟩ := Launch.load_eq_next_iff.1 h
  have hp : l.cfg.p.Prime := Launch.admits_pNotPrime_iff.1 (hall _ (by decide))
  obtain ⟨hregs, hmem⟩ := Launch.admits_initialMemoryBad_iff.1 (hall _ (by decide))
  exact {
    p_gt_one := hp.one_lt
    pc_lt := hp.pos
    regs_fit := hregs
    mem_fit := hmem
    hints_fit := nofun
    inputs_fit := Launch.admits_inputsBad_iff.1 (hall _ (by decide))
    log_lt := nofun
    report_iff := ⟨nofun, nofun⟩ }

/-- While the invariant holds, an address that has a value is in its domain and the value is an element of F. -/
theorem State.Wf.of_peek (h : s.Wf) {as addr v : Nat} (hv : s.peek as addr = some v) :
    inDomain s.cfg as addr = true ∧ v < s.cfg.p := by
  by_cases has : as = 1 ∨ as = 2
  · rw [State.peek, if_pos has] at hv
    rcases has with rfl | rfl
    · exact h.regs_fit.read hv
    · exact h.mem_fit.read hv
  · simp [State.peek, has] at hv

/-- Settles O23. -/
theorem acceptedLaunchHasEveryValueInRange : Obligations.AcceptedLaunchHasEveryValueInRange := fun _ _ hload =>
  have hwf := Launch.wf_of_load hload
  ⟨hwf, fun _ _ _ => hwf.of_peek⟩

end Sys2Proof.Machine
end
